-- ==== Sys2Proof/Word.lean ====
section
/-! DEFINITION. The words of the demo machine: registers and addresses of `XLEN` = 64 bits (spec/00_scope.md R6,
R11), bytes of 8 bits (spec/20_memory.md R40) and parcels of 16 bits (spec/00_scope.md R13). -/

namespace Sys2Proof

/-- A 64-bit value: the contents of a general register, or a logical address held in `pc` (R21, R23). -/
abbrev Word := BitVec 64

/-- One byte of memory (R40). -/
abbrev Byte := BitVec 8

/-- A parcel: a 16-bit unit of the instruction stream (R13). -/
abbrev Parcel := BitVec 16

end Sys2Proof
end

