-- ==== Sys2Proof/Config.lean ====
section
/-! DEFINITION. The implementation parameters of spec/00_scope.md R6. The spec fixes `XLEN` = 64 and `NGPR` = 32 (they
are the types `Word` and `Vector Word 32`) and leaves the rest as arguments of the model: they are plain data, held
beside the state as the run's constants (spec/10_state.md R20), so that a statement about every state is a statement
about every value of every parameter. `IMAGE` itself is the memory of `Machine.State`. -/

namespace Sys2Proof

/-- `LE_XOR`, the open parameter of the little-endian layout: 1 or 3 (R6, R46). -/
inductive LeXor where
  | one
  | three
  deriving DecidableEq, Repr

/-- `ENDIAN`, with `LE_XOR` where it is used: only when `ENDIAN` = LE (R6, R29, R46). -/
inductive Endian where
  | be
  | le (x : LeXor)
  deriving DecidableEq, Repr

/-- `PREFIX_PO`, the primary opcode of a prefix: the decided value 1, or 14, which follows the page's cell to the
letter under the decode priority of spec/30_encoding.md R69 (R6, D1). -/
inductive PrefixPo where
  | one
  | fourteen
  deriving DecidableEq, Repr

/-- The run's constants (R6, R20): no instruction changes them. `imageBase` is `IMAGE_BASE`, `entryPc` is `ENTRY_PC`
and `endPc` is `END_PC`; `prefixCross64bFaults` is `PREFIX_CROSS_64B_FAULTS`. -/
structure RunConsts where
  endian : Endian
  prefixPo : PrefixPo
  prefixCross64bFaults : Bool
  imageBase : Word
  entryPc : Word
  endPc : Word
  deriving DecidableEq, Repr

end Sys2Proof
end

