-- ==== Sys2Proof/Syntax.lean ====
section
/-! DEFINITION. The decode modes and the eight instruction forms of the demo machine (spec/00_scope.md R2), one
constructor of `Instr` per row of spec/opcode_table.json, each with the fields its format gives it
(spec/30_encoding.md R62 to R65, R67). -/

namespace Sys2Proof

/-- The decode mode (spec/10_state.md R25). It is never a privilege mode (spec/60_exceptions.md R127). -/
inductive Mode where
  | standard
  | compressed
  deriving DecidableEq, Repr

/-- A 5-bit register number, the RT or RA field of formats S32 and P64 (R62, R63). -/
abbrev RegNum := BitVec 5

/-- A 3-bit small-register code, the SRT or SRS field of formats H16 and C16 (R64, R67). -/
abbrev SmallCode := BitVec 3

/-- The eight instruction forms (R2). The `//` bits of a `paddi` prefix are no field: every value of them is the same
instruction (R71). -/
inductive Instr where
  /-- `addi RT, RA, immed`, 32 bits, Standard mode (R90). -/
  | addi (rt ra : RegNum) (si : BitVec 16)
  /-- `paddi RT, RA, immed`, 64 bits, Standard mode (R95). -/
  | paddi (rt ra : RegNum) (si0 : BitVec 18) (si1 : BitVec 16)
  /-- `h.add RT, RS`, 16 bits, Standard mode (R100). -/
  | hAdd (srt srs : SmallCode)
  /-- `hs.add RT, RS`, 16 bits, Standard mode (R101). -/
  | hsAdd (srt srs : SmallCode)
  /-- `x.placeholder`, 48 bits, Standard mode: the fields "placeholder (6:20)", XO (21:30) and "placeholder (31:47)"
  (R65, R105). -/
  | xPlaceholder (high : BitVec 15) (xo : BitVec 10) (low : BitVec 17)
  /-- `c.add RT, RS`, 16 bits, Compressed mode (R110). -/
  | cAdd (srt srs : SmallCode)
  /-- `cs.add RT, RS`, 16 bits, Compressed mode (R111). -/
  | csAdd (srt srs : SmallCode)
  /-- `cst.add RT, RS`, 16 bits, Compressed mode (R112). -/
  | cstAdd (srt srs : SmallCode)
  deriving DecidableEq, Repr

end Sys2Proof
end

