-- ==== Sys2Proof/WellFormed.lean ====
section
/-! DEFINITION. Which terms of `Instr` are instructions of the demo machine. The types of the fields already hold every
bound but one: the XO of `x.placeholder` is any value but 256 (spec/30_encoding.md R65, R73). Which of them can be
encoded depends on `PREFIX_PO` (R69). -/

namespace Sys2Proof

/-- The one value XO may not have in format X48 (R65, "!= 256"). -/
def reservedXo : BitVec 10 := 256#10

/-- An instruction of the demo machine: XO of `x.placeholder` is not 256 (R65). -/
def Instr.wellFormed : Instr → Bool
  | .addi _ _ _ => true
  | .paddi _ _ _ _ => true
  | .hAdd _ _ => true
  | .hsAdd _ _ => true
  | .xPlaceholder _ xo _ => xo != reservedXo
  | .cAdd _ _ => true
  | .csAdd _ _ => true
  | .cstAdd _ _ => true

/-- The `addi` words that `PREFIX_PO` = 14 takes away: RT in 16 to 19 and RA in 0 to 15 (R69). -/
def addiIsPrefix14 (rt ra : RegNum) : Bool :=
  decide (16 ≤ rt.toNat) && decide (rt.toNat ≤ 19) && decide (ra.toNat ≤ 15)

/-- Whether a form has an encoding under a choice of `PREFIX_PO`: every form has one under 1; under 14 the `addi` words
of `addiIsPrefix14` are read as prefixes (R69, R82). -/
def Instr.encodable (p : PrefixPo) : Instr → Bool
  | .addi rt ra _ => match p with
    | .one => true
    | .fourteen => !addiIsPrefix14 rt ra
  | .paddi _ _ _ _ => true
  | .hAdd _ _ => true
  | .hsAdd _ _ => true
  | .xPlaceholder _ _ _ => true
  | .cAdd _ _ => true
  | .csAdd _ _ => true
  | .cstAdd _ _ => true

end Sys2Proof
end

