-- ==== Sys2Proof/Decode.lean ====
section
/-! DEFINITION. The two decoders (spec/30_encoding.md R66, R69, R74) over a byte-fetch function, the encoder that
inverts them (R62 to R67, R82), and the reading of a word of spec/opcode_table.json. Decoding is total: what it does
not decode it rejects by name, in the order of R66, which is the priority of spec/60_exceptions.md R128. -/

namespace Sys2Proof

/-! ## Fields -/

/-- `insn{a:b}`, the page's MSB0 field: bits a to b of an N-bit instruction, bit 0 the most significant (R7, R9). -/
def field {n : Nat} (insn : BitVec n) (a b : Nat) : BitVec (b - a + 1) :=
  insn.extractLsb' (n - 1 - b) (b - a + 1)

/-- The value of `PREFIX_PO` (R6). -/
def PrefixPo.value : PrefixPo → BitVec 6
  | .one => 1#6
  | .fourteen => 14#6

/-- The primary opcode of the 16-bit class (R64). -/
def poH16 : BitVec 6 := 5#6

/-- The primary opcode of the 48-bit class (R65). -/
def poX48 : BitVec 6 := 0#6

/-- The primary opcode of `addi` and of the suffix of `paddi` (R62, R63). -/
def poAddi : BitVec 6 := 14#6

/-- SOH of the three Compressed forms (R67). -/
def sohAdd : BitVec 5 := 1#5

/-! ## Form tables -/

/-- The decode mode in which a form is decoded: the "Mode" column of spec/10_state.md R27. -/
def Instr.mode : Instr → Mode
  | .addi _ _ _ => .standard
  | .paddi _ _ _ _ => .standard
  | .hAdd _ _ => .standard
  | .hsAdd _ _ => .standard
  | .xPlaceholder _ _ _ => .standard
  | .cAdd _ _ => .compressed
  | .csAdd _ _ => .compressed
  | .cstAdd _ _ => .compressed

/-- The width of a form in bytes (spec/10_state.md R24, R27 "Instruction Width"). -/
def Instr.width : Instr → Nat
  | .addi _ _ _ => 4
  | .paddi _ _ _ _ => 8
  | .hAdd _ _ => 2
  | .hsAdd _ _ => 2
  | .xPlaceholder _ _ _ => 6
  | .cAdd _ _ => 2
  | .csAdd _ _ => 2
  | .cstAdd _ _ => 2

/-! ## Rejections -/

/-- The bits decode had fetched when it refused: 32 bits, or the 64 of a prefix and its suffix (R123). -/
inductive FetchedBits where
  | word (w : BitVec 32)
  | pair (v : BitVec 64)
  deriving DecidableEq, Repr

/-- Why decode ends without an instruction (spec/60_exceptions.md R122, R123). -/
inductive Reject where
  /-- A byte of the instruction, at logical address `a`, is outside the image (R44, R49). -/
  | fetchOutsideImage (a : Nat)
  /-- A prefix starts at `pc mod 64 > 56` (R50). -/
  | prefixCrosses64B (pc : Word)
  /-- The parcel is an undefined encoding of a space the page calls "New" (R70, R75). -/
  | illegalEncoding (pc : Word) (parcel : Parcel)
  /-- The bits belong to Power ISA and are given no meaning (R72, R73, R96). -/
  | outOfScope (pc : Word) (bits : FetchedBits)
  deriving DecidableEq, Repr

/-! ## The decoders -/

/-- `FetchParcel(a)`: bits 0:7 from `a`, bits 8:15 from `a + 1` (spec/20_memory.md R47). -/
def fetchParcel (fetch : Nat → Except Reject Byte) (a : Nat) : Except Reject Parcel := do
  let hi ← fetch a
  let lo ← fetch (a + 1)
  .ok (hi ++ lo)

/-- The 16-bit class of Standard mode, format H16 (R66, R64, R70). -/
def decodeH16 (pc : Word) (p0 : Parcel) : Except Reject (Instr × Nat) :=
  if field p0 6 8 ≠ 0 then .error (.illegalEncoding pc p0)
  else if field p0 15 15 = 0 then .ok (.hAdd (field p0 9 11) (field p0 12 14), 2)
  else .ok (.hsAdd (field p0 9 11) (field p0 12 14), 2)

/-- The 48-bit class, format X48, unless XO = 256 (R66, R65, R73). -/
def decodeX48 (fetch : Nat → Except Reject Byte) (pc : Word) (w : BitVec 32) : Except Reject (Instr × Nat) :=
  if field w 21 30 = reservedXo then .error (.outOfScope pc (.word w))
  else do
    let p2 ← fetchParcel fetch (pc.toNat + 4)
    let v : BitVec 48 := w ++ p2
    .ok (.xPlaceholder (field v 6 20) (field v 21 30) (field v 31 47), 6)

/-- The fixed bits of a `paddi` prefix after its PO: 6:7 = 2, 8 = 0, R (11) = 0 (R63, R66). -/
def isPaddiPrefix (w : BitVec 32) : Bool :=
  decide (field w 6 7 = 2) && decide (field w 8 8 = 0) && decide (field w 11 11 = 0)

/-- The suffix of a `paddi` whose prefix is `w` (R66, R63). -/
def decodeSuffix (fetch : Nat → Except Reject Byte) (pc : Word) (w : BitVec 32) : Except Reject (Instr × Nat) := do
  let s0 ← fetchParcel fetch (pc.toNat + 4)
  let s1 ← fetchParcel fetch (pc.toNat + 6)
  let s : BitVec 32 := s0 ++ s1
  if field s 0 5 ≠ poAddi then .error (.outOfScope pc (.pair (w ++ s)))
  else .ok (.paddi (field s 6 10) (field s 11 15) (field w 14 31) (field s 16 31), 8)

/-- The 64-byte check: a prefix at `pc mod 64 > 56`, where the parameter asks for the fault (spec/20_memory.md R50). -/
def crosses64B (cross : Bool) (pc : Word) : Bool :=
  cross && decide (56 < pc.toNat % 64)

/-- `addi`, format S32 (R66, R62). -/
def decodeS32 (w : BitVec 32) : Instr × Nat :=
  (.addi (field w 6 10) (field w 11 15) (field w 16 31), 4)

/-- The branches of R66 for a first word whose PO is neither 5 nor 0, with `PREFIX_PO` = 1. -/
def decodeWord1 (cross : Bool) (fetch : Nat → Except Reject Byte) (pc : Word) (w : BitVec 32) :
    Except Reject (Instr × Nat) :=
  if field w 0 5 = PrefixPo.one.value then
    if crosses64B cross pc then .error (.prefixCrosses64B pc)
    else if isPaddiPrefix w then decodeSuffix fetch pc w
    else .error (.outOfScope pc (.word w))
  else if field w 0 5 = poAddi then .ok (decodeS32 w)
  else .error (.outOfScope pc (.word w))

/-- The same with `PREFIX_PO` = 14: the prefix pattern first, `addi` otherwise (R69). -/
def decodeWord14 (cross : Bool) (fetch : Nat → Except Reject Byte) (pc : Word) (w : BitVec 32) :
    Except Reject (Instr × Nat) :=
  if field w 0 5 = PrefixPo.fourteen.value then
    if isPaddiPrefix w then
      if crosses64B cross pc then .error (.prefixCrosses64B pc)
      else decodeSuffix fetch pc w
    else .ok (decodeS32 w)
  else .error (.outOfScope pc (.word w))

/-- The branches of R66 for a first word whose PO is neither 5 nor 0, under either `PREFIX_PO` (R66, R69). -/
def decodeWord (p : PrefixPo) (cross : Bool) (fetch : Nat → Except Reject Byte) (pc : Word) (w : BitVec 32) :
    Except Reject (Instr × Nat) :=
  match p with
  | .one => decodeWord1 cross fetch pc w
  | .fourteen => decodeWord14 cross fetch pc w

/-- `decodeStandard(pc)`, the Standard-mode decoder, with the instruction's length in bytes (R66, R69). -/
def decodeStandard (p : PrefixPo) (cross : Bool) (fetch : Nat → Except Reject Byte) (pc : Word) :
    Except Reject (Instr × Nat) := do
  let p0 ← fetchParcel fetch pc.toNat
  if field p0 0 5 = poH16 then decodeH16 pc p0
  else do
    let p1 ← fetchParcel fetch (pc.toNat + 2)
    let w : BitVec 32 := p0 ++ p1
    if field w 0 5 = poX48 then decodeX48 fetch pc w
    else decodeWord p cross fetch pc w

/-- `decodeCompressed(h)`, the Compressed-mode decoder of one parcel (R74, R75). -/
def decodeCompressed (pc : Word) (h : Parcel) : Except Reject (Instr × Nat) :=
  if field h 1 5 ≠ sohAdd ∨ field h 6 8 ≠ 0 then .error (.illegalEncoding pc h)
  else if field h 0 0 = 0 ∧ field h 15 15 = 0 then .ok (.cAdd (field h 9 11) (field h 12 14), 2)
  else if field h 0 0 = 0 ∧ field h 15 15 = 1 then .ok (.csAdd (field h 9 11) (field h 12 14), 2)
  else if field h 0 0 = 1 ∧ field h 15 15 = 1 then .ok (.cstAdd (field h 9 11) (field h 12 14), 2)
  else .error (.illegalEncoding pc h)

/-- Fetch and decode at `pc` in a decode mode: step 2 of spec/10_state.md R34. -/
def decodeAt (p : PrefixPo) (cross : Bool) (m : Mode) (fetch : Nat → Except Reject Byte) (pc : Word) :
    Except Reject (Instr × Nat) :=
  match m with
  | .standard => decodeStandard p cross fetch pc
  | .compressed => do
    let h ← fetchParcel fetch pc.toNat
    decodeCompressed pc h

/-! ## The encoder -/

/-- The bytes of a value of `n` bytes in stream order: bits 0:7 first (spec/20_memory.md R43, R47). -/
def bytesOf (n : Nat) (v : BitVec (8 * n)) : List Byte :=
  (List.range n).map fun k => v.extractLsb' (8 * (n - 1 - k)) 8

/-- Format H16 (R64). -/
def wordH16 (srt srs : SmallCode) (scm : BitVec 1) : BitVec 16 := poH16 ++ 0#3 ++ srt ++ srs ++ scm

/-- Format C16 (R67). -/
def wordC16 (scmt : BitVec 1) (srt srs : SmallCode) (scm : BitVec 1) : BitVec 16 :=
  scmt ++ sohAdd ++ 0#3 ++ srt ++ srs ++ scm

/-- Format S32 (R62), also the layout of the suffix of P64 (R63). -/
def wordS32 (rt ra : RegNum) (si : BitVec 16) : BitVec 32 := poAddi ++ rt ++ ra ++ si

/-- The prefix of format P64, its `//` bits zero (R63, R71). -/
def wordP64 (p : PrefixPo) (si0 : BitVec 18) : BitVec 32 :=
  p.value ++ 2#2 ++ 0#1 ++ 0#2 ++ 0#1 ++ 0#2 ++ si0

/-- Format X48 (R65). -/
def wordX48 (high : BitVec 15) (xo : BitVec 10) (low : BitVec 17) : BitVec 48 := poX48 ++ high ++ xo ++ low

/-- The bytes of an instruction in stream order (R62 to R67, R82). -/
def encode (p : PrefixPo) : Instr → List Byte
  | .addi rt ra si => bytesOf 4 (wordS32 rt ra si)
  | .paddi rt ra si0 si1 => bytesOf 4 (wordP64 p si0) ++ bytesOf 4 (wordS32 rt ra si1)
  | .hAdd srt srs => bytesOf 2 (wordH16 srt srs 0#1)
  | .hsAdd srt srs => bytesOf 2 (wordH16 srt srs 1#1)
  | .xPlaceholder high xo low => bytesOf 6 (wordX48 high xo low)
  | .cAdd srt srs => bytesOf 2 (wordC16 0#1 srt srs 0#1)
  | .csAdd srt srs => bytesOf 2 (wordC16 0#1 srt srs 1#1)
  | .cstAdd srt srs => bytesOf 2 (wordC16 1#1 srt srs 1#1)

/-! ## Words of spec/opcode_table.json -/

/-- The bytes, in stream order, of an instruction whose first `nbits` bits are `w` as spec/opcode_table.json numbers
them (bit 0 the least significant bit of the whole value, the prefix of a 64-bit form its most significant half) and
whose later bits are 0. Eight bytes, the longest instruction. See log entry 13. -/
def tableBytes (nbits w : Nat) : List Byte :=
  (List.range 8).map fun k => if 8 * (k + 1) ≤ nbits then BitVec.ofNat 8 (w >>> (nbits - 8 * (k + 1))) else 0#8

/-- A stream that holds `bytes` from address 0 on and nothing else. -/
def fetchFrom (bytes : List Byte) (a : Nat) : Except Reject Byte :=
  match bytes[a]? with
  | some b => .ok b
  | none => .error (.fetchOutsideImage a)

/-- The instruction of a table word, with its decode mode: Standard where the Standard-mode decoder gives an
instruction, else Compressed where the Compressed-mode decoder does (log entry 13). -/
def decodeTableWordIn (p : PrefixPo) (nbits w : Nat) : Option (Mode × Instr) :=
  match decodeAt p true .standard (fetchFrom (tableBytes nbits w)) 0 with
  | .ok (i, _) => some (.standard, i)
  | .error _ =>
    match decodeAt p true .compressed (fetchFrom (tableBytes nbits w)) 0 with
    | .ok (i, _) => some (.compressed, i)
    | .error _ => none

/-- The instruction this decoder reads from an instruction whose bits are `w` (log entry 13). -/
def decodeTableWord (nbits w : Nat) : Option Instr :=
  (decodeTableWordIn .one nbits w).map Prod.snd

end Sys2Proof
end

