-- ==== Sys2Proof/Machine/State.lean ====
section
/-! DEFINITION. The state of the demo machine (spec/10_state.md R20) with the run's constants beside it, the terminal
outcomes of a step (spec/60_exceptions.md R120 to R123), and the state at launch (R35) under the parameters of log
entries 1 and 2. -/

namespace Sys2Proof.Machine

/-- Memory: the image, and nothing else, as (physical address, byte) cells (spec/20_memory.md R41). An address that is
not listed holds nothing. The canonical form is `Memory.wf`. -/
abbrev Memory := List Host.Cell

/-- The one canonical form of a memory: addresses strictly rising. An unlisted address holds nothing, so no cell can
equal what it reads as. -/
abbrev Memory.wf (m : Memory) : Prop := m.Pairwise fun c d => c.1 < d.1

/-- The state of the demo machine: `x`, `pc`, `mode` and `swap_back` (R20), the image, which is constant for the whole
run (R42), and the run's other constants (R20, R6). -/
structure State where
  x : Vector Word 32
  pc : Word
  mode : Mode
  swapBack : Bool
  mem : Memory
  run : RunConsts
  deriving DecidableEq, Repr

/-- Every fault of the demo machine (R122). Each is terminal and writes no state (R120). -/
inductive Fault where
  /-- Raised by `step` when the pc is odd (R48). Safe: an ending the hardware may lack. -/
  | fetchMisaligned (pc : Word)
  /-- Raised by fetch when byte `a` (a logical address) of the instruction lies outside the image (R49). Safe. -/
  | fetchOutsideImage (a : Nat)
  /-- Raised by the Standard-mode decoder for a prefix at `pc mod 64 > 56` (R50). Safe. -/
  | prefixCrosses64B (pc : Word)
  /-- Raised by either decoder for an undefined encoding of a "New" space (R70, R75). Safe. -/
  | illegalEncoding (pc : Word) (parcel : Parcel)
  deriving DecidableEq, Repr

/-- Every refusal (R123), and the two the model needs beside them. Each writes no state (R121). -/
inductive Refusal where
  /-- An instruction with no meaning in this model yet. Raised by no arm of `exec`. Safe. -/
  | notModelled (mnemonic : String)
  /-- Raised by the Standard-mode decoder for a Power ISA word the spec gives no meaning (R72, R73, R96). Safe. -/
  | outOfScope (pc : Word) (bits : FetchedBits)
  /-- Raised by `x.placeholder`, whose operation the spec does not give (R105). Safe. -/
  | placeholder (pc : Word) (v : BitVec 48)
  /-- Raised by `step` in a final state: the run is over, with success, and no step exists (spec/70 R143, log entry 6).
  Safe. -/
  | final (pc : Word)
  deriving DecidableEq, Repr

/-- The run's constants of `State.reset`: BE, `PREFIX_PO` = 1, the 64-byte check on, `IMAGE_BASE` = `ENTRY_PC` = 0x1000
(R6, R41) and `END_PC` at its default, the end of the image, which is empty (log entry 2). -/
def RunConsts.reset : RunConsts where
  endian := .be
  prefixPo := .one
  prefixCross64bFaults := true
  imageBase := 0x1000#64
  entryPc := 0x1000#64
  endPc := 0x1000#64

/-- The machine at launch: pc = `ENTRY_PC`, mode Standard, swap_back false (R35). Registers, whose launch values the
spec leaves free, are zero here (log entry 1); the image is empty (log entry 2). -/
def State.reset : State where
  x := Vector.replicate 32 0#64
  pc := RunConsts.reset.entryPc
  mode := .standard
  swapBack := false
  mem := []
  run := RunConsts.reset

end Sys2Proof.Machine
end

