-- ==== Sys2Proof/Machine/Flags.lean ====
section
/-! DEFINITION. The demo machine has no status flag, condition code or predicate (spec/10_state.md R30), so there is no
flag computation. What an instruction leaves beside its result is the decode mode: the mode update of R28 stands here. -/

namespace Sys2Proof.Machine

/-- The mode and swap_back that a form sets by itself: the "Next Mode" and "Next Next Mode" columns of R27. -/
def ownNextMode : Instr → Mode × Bool
  | .addi _ _ _ => (.standard, false)
  | .paddi _ _ _ _ => (.standard, false)
  | .hAdd _ _ => (.standard, false)
  | .hsAdd _ _ => (.compressed, false)
  | .xPlaceholder _ _ _ => (.standard, false)
  | .cAdd _ _ => (.compressed, false)
  | .csAdd _ _ => (.standard, false)
  | .cstAdd _ _ => (.standard, true)

/-- `nextMode(mode, swap_back, i)` (R28): a pending swap back in Standard mode wins, otherwise the form's own row. For a
form that the mode cannot decode, where R28 has no clause, the same two lines answer (log entry 9). -/
def nextMode (m : Mode) (swapBack : Bool) (i : Instr) : Mode × Bool :=
  match m with
  | .standard => if swapBack then (.compressed, false) else ownNextMode i
  | .compressed => ownNextMode i

end Sys2Proof.Machine
end

