-- ==== Sys2Proof/Machine/Ops.lean ====
section
/-! DEFINITION. The named operations over memory and registers: reads and writes of the image's cells, instruction fetch
(spec/20_memory.md R44), the end of a run (spec/70_reset_and_hazards.md R143), the terminal outcomes of decode
(spec/60_exceptions.md R122, R123), and what every completing form does after its result (spec/10_state.md R34 steps 4
to 6). There is no trap entry and no return from one (R124, R126): a fault or a refusal ends the run and writes nothing,
so no operation saves state or transfers control. -/

namespace Sys2Proof.Machine

/-! ## Memory -/

/-- The byte at a physical address; nothing where the image has none (R41). -/
def Memory.read : Memory → Nat → Option Byte
  | [], _ => none
  | (k, b) :: m, a => if k = a then some b else Memory.read m a

/-- Place a byte at a physical address, keeping the canonical form. No instruction does this (R42): it builds images. -/
def Memory.write : Memory → Nat → Byte → Memory
  | [], a, v => [(a, v)]
  | (k, b) :: m, a, v =>
    if a < k then (a, v) :: (k, b) :: m
    else if a = k then (a, v) :: m
    else (k, b) :: Memory.write m a v

/-- The memory that holds `IMAGE` at `IMAGE_BASE`: `IMAGE[k]` at physical address `base + k` (R41). -/
def Memory.ofImage (base : Nat) : List Byte → Memory
  | [] => []
  | b :: bs => (base, b) :: Memory.ofImage (base + 1) bs

/-- The cells lie at consecutive addresses from `base` on, as those of an image do (R41). -/
def Memory.contiguousFrom (base : Nat) : Memory → Bool
  | [] => true
  | (k, _) :: m => k == base && Memory.contiguousFrom (base + 1) m

/-! ## General registers -/

/-- `x[i]` (spec/00_scope.md R11): no register is hardwired (spec/10_state.md R21). -/
def State.reg (s : State) (r : RegNum) : Word := s.x[r.toNat]'r.isLt

/-- `x[i] <- v` (R11). -/
def State.setReg (s : State) (r : RegNum) (v : Word) : State :=
  { s with x := s.x.set r.toNat v r.isLt }

/-! ## Instruction fetch -/

/-- What a logical address is XORed with to give the physical one: 0 in BE mode, `LE_XOR` in LE mode (R44). -/
def xorMask : Endian → Nat
  | .be => 0
  | .le .one => 1
  | .le .three => 3

/-- `FetchByte(a)` (R44). Addresses are natural numbers, so that one at or above 2^64 is outside every image instead of
wrapping (R49, log entry 11). -/
def State.fetchByte (s : State) (a : Nat) : Except Reject Byte :=
  match Memory.read s.mem (a ^^^ xorMask s.run.endian) with
  | some b => .ok b
  | none => .error (.fetchOutsideImage a)

/-- Step 2 of R34: fetch and decode at the pc, in the decode mode. -/
def State.fetchInstr (s : State) : Except Reject (Instr × Nat) :=
  decodeAt s.run.prefixPo s.run.prefixCross64bFaults s.mode s.fetchByte s.pc

/-- Step 1 of R34: the pc is odd (R48). -/
def State.pcIsOdd (s : State) : Bool := s.pc.toNat % 2 == 1

/-- A state is final exactly when `pc = END_PC` (R143). -/
def State.isFinal (s : State) : Bool := s.pc == s.run.endPc

/-- The terminal outcome a rejection by decode is (R122, R123). -/
def stopOf : Reject → Host.Outcome State Fault Refusal
  | .fetchOutsideImage a => .fault (.fetchOutsideImage a)
  | .prefixCrosses64B pc => .fault (.prefixCrosses64B pc)
  | .illegalEncoding pc parcel => .fault (.illegalEncoding pc parcel)
  | .outOfScope pc bits => .refused (.outOfScope pc bits)

/-! ## Completing a form -/

/-- What every form that completes does after its result: the pc advances by the form's width (R24, R11) and the mode update
is made (R28). -/
def State.complete (s : State) (i : Instr) : State :=
  { s with
    pc := s.pc + BitVec.ofNat 64 i.width
    mode := (nextMode s.mode s.swapBack i).1
    swapBack := (nextMode s.mode s.swapBack i).2 }

/-! ## Placing an instruction (the host's probe; log entries 12 and 13) -/

/-- Place bytes of the stream at logical addresses `a`, `a + 1`, ... (R43, R44). -/
def State.placeBytes (s : State) (a : Nat) : List Byte → State
  | [] => s
  | b :: bs =>
    State.placeBytes { s with mem := Memory.write s.mem (a ^^^ xorMask s.run.endian) b } (a + 1) bs

/-- The decode mode a table word is placed in: the mode whose decoder gives the instruction, and no change where neither
does. A swap back may only be pending in Standard mode (R26). -/
def State.enterModeOf (s : State) (nbits w : Nat) : State :=
  match decodeTableWordIn s.run.prefixPo nbits w with
  | some (.standard, _) => { s with mode := .standard }
  | some (.compressed, _) => { s with mode := .compressed, swapBack := false }
  | none => s

/-- Place the instruction of a table word at the pc, in the mode that decodes it, in a run that is not over. -/
def State.placeTableWord (s : State) (nbits w : Nat) : State :=
  let t := (s.placeBytes s.pc.toNat (tableBytes nbits w)).enterModeOf nbits w
  if s.isFinal then { t with run := { t.run with endPc := s.pc + 8#64 } } else t

end Sys2Proof.Machine
end

