-- ==== Sys2Proof/Machine/Operands.lean ====
section
/-! DEFINITION. The operand forms: the small-register map (spec/10_state.md R22), the operand `(RA|0)`
(spec/00_scope.md R10, R11) and the immediates (spec/30_encoding.md R68). -/

namespace Sys2Proof.Machine

/-- `small(c)`: codes 0 to 7 name R3, R4, R5, R6, R28, R29, R30, R31 (R22). -/
def small (c : SmallCode) : RegNum :=
  if c < 4#3 then c.setWidth 5 + 3#5 else c.setWidth 5 + 24#5

/-- `c(R)`, the inverse of `small`; nothing for the 24 registers no 16-bit form can name (R22, R82). -/
def smallCode (r : RegNum) : Option SmallCode :=
  if 3#5 ≤ r ∧ r ≤ 6#5 then some ((r - 3#5).setWidth 3)
  else if 28#5 ≤ r then some ((r - 24#5).setWidth 3)
  else none

/-- The operand `(RA|0)`: the constant 0 when the field is 0, otherwise the register (R10, R11). -/
def State.ra0 (s : State) (ra : RegNum) : Word := if ra = 0#5 then 0#64 else s.reg ra

/-- `sext_64(v)`: sign extension to 64 bits (R10, R11). -/
def sext64 {n : Nat} (v : BitVec n) : Word := v.signExtend 64

/-- `si0 ++ si1`, the 34-bit immediate of `paddi` (R68). -/
def imm34 (si0 : BitVec 18) (si1 : BitVec 16) : BitVec 34 := si0 ++ si1

/-- The sum of the five 16-bit forms, `x[small(SRT)] + x[small(SRS)]` modulo 2^64, written to `x[small(SRT)]`
(R100, R101, R110 to R112, R91). -/
def State.addSmall (s : State) (srt srs : SmallCode) : State :=
  s.setReg (small srt) (s.reg (small srt) + s.reg (small srs))

/-- The sum of `addi` and `paddi`: `x[RT] <- ra0(RA) + imm` modulo 2^64, `imm` already extended (R90, R95, R91). -/
def State.addImm (s : State) (rt ra : RegNum) (imm : Word) : State := s.setReg rt (s.ra0 ra + imm)

end Sys2Proof.Machine
end

