-- ==== Sys2Proof/Machine/Comp16.lean ====
section
/-! DEFINITION. Compressed-mode 16-bit instructions (spec/44_compressed16.md), with the directions of
spec/90_conflicts.md C2 and C3: `cs.` and `cst.` swap to Standard mode. -/

namespace Sys2Proof.Machine

/-- `c.add RT, RS` (R110): add, stay in Compressed mode. -/
def execCAdd (srt srs : SmallCode) (s : State) : Host.Outcome State Fault Refusal :=
  .next ((s.addSmall srt srs).complete (.cAdd srt srs))

/-- `cs.add RT, RS` (R111): add and swap to Standard mode. -/
def execCsAdd (srt srs : SmallCode) (s : State) : Host.Outcome State Fault Refusal :=
  .next ((s.addSmall srt srs).complete (.csAdd srt srs))

/-- `cst.add RT, RS` (R112): add and swap to Standard mode for one instruction. -/
def execCstAdd (srt srs : SmallCode) (s : State) : Host.Outcome State Fault Refusal :=
  .next ((s.addSmall srt srs).complete (.cstAdd srt srs))

end Sys2Proof.Machine
end

