-- ==== Sys2Proof/Machine/Std16.lean ====
section
/-! DEFINITION. Standard-mode 16-bit instructions (spec/42_std16_hadd.md). -/

namespace Sys2Proof.Machine

/-- `h.add RT, RS` (R100): add, stay in Standard mode, or swap back to Compressed where a `cst.` asked for it. -/
def execHAdd (srt srs : SmallCode) (s : State) : Host.Outcome State Fault Refusal :=
  .next ((s.addSmall srt srs).complete (.hAdd srt srs))

/-- `hs.add RT, RS` (R101): add and swap to Compressed mode. -/
def execHsAdd (srt srs : SmallCode) (s : State) : Host.Outcome State Fault Refusal :=
  .next ((s.addSmall srt srs).complete (.hsAdd srt srs))

end Sys2Proof.Machine
end

