-- ==== Sys2Proof/Machine/Std32.lean ====
section
/-! DEFINITION. Standard-mode 32-bit instructions (spec/40_std32_addi.md). -/

namespace Sys2Proof.Machine

/-- `addi RT, RA, immed` (R90): `x[RT] <- ra0(RA) + sext_64(SI)`. -/
def execAddi (rt ra : RegNum) (si : BitVec 16) (s : State) : Host.Outcome State Fault Refusal :=
  .next ((s.addImm rt ra (sext64 si)).complete (.addi rt ra si))

end Sys2Proof.Machine
end

