-- ==== Sys2Proof/Machine/Std48.lean ====
section
/-! DEFINITION. Standard-mode 48-bit instructions (spec/43_std48_placeholder.md). -/

namespace Sys2Proof.Machine

/-- `x.placeholder` (R105): its operation is not defined, so the step ends in `Refuse.Placeholder(pc, v)`, `v` its 48
bits; no state is written. The spec forbids to execute it as a no-operation. -/
def execXPlaceholder (high : BitVec 15) (xo : BitVec 10) (low : BitVec 17) (s : State) :
    Host.Outcome State Fault Refusal :=
  .refused (.placeholder s.pc (wordX48 high xo low))

end Sys2Proof.Machine
end

