-- ==== Sys2Proof/Machine/Std64.lean ====
section
/-! DEFINITION. Standard-mode 64-bit instructions (spec/41_std64_paddi.md). A prefix with R = 1 is not a `paddi` of the
demo machine and is refused by decode (R96). -/

namespace Sys2Proof.Machine

/-- `paddi RT, RA, immed` (R95): `x[RT] <- ra0(RA) + sext_64(si0 ++ si1)`. -/
def execPaddi (rt ra : RegNum) (si0 : BitVec 18) (si1 : BitVec 16) (s : State) :
    Host.Outcome State Fault Refusal :=
  .next ((s.addImm rt ra (sext64 (imm34 si0 si1))).complete (.paddi rt ra si0 si1))

end Sys2Proof.Machine
end

