-- ==== Sys2Proof/Machine/Dispatch.lean ====
section
/-! DEFINITION. The meaning of every instruction, one arm per constructor of `Instr`: step 3 to 5 of
spec/10_state.md R34. -/

namespace Sys2Proof.Machine

def exec (i : Instr) (s : State) : Host.Outcome State Fault Refusal :=
  match i with
  | .addi rt ra si => Sys2Proof.Machine.execAddi rt ra si s
  | .paddi rt ra si0 si1 => Sys2Proof.Machine.execPaddi rt ra si0 si1 s
  | .hAdd srt srs => Sys2Proof.Machine.execHAdd srt srs s
  | .hsAdd srt srs => Sys2Proof.Machine.execHsAdd srt srs s
  | .xPlaceholder high xo low => Sys2Proof.Machine.execXPlaceholder high xo low s
  | .cAdd srt srs => Sys2Proof.Machine.execCAdd srt srs s
  | .csAdd srt srs => Sys2Proof.Machine.execCsAdd srt srs s
  | .cstAdd srt srs => Sys2Proof.Machine.execCstAdd srt srs s

end Sys2Proof.Machine
end

