-- ==== Sys2Proof/Machine/Step.lean ====
section
/-! DEFINITION. One step of the demo machine (spec/10_state.md R34), with the three outcomes of spec/00_scope.md R12. -/

namespace Sys2Proof.Machine

/-- One step (R34). A final state has no step (spec/70 R143): there it answers `Refusal.final` (log entry 6). -/
def step (s : State) : Host.Outcome State Fault Refusal :=
  if s.isFinal then .refused (.final s.pc)
  else if s.pcIsOdd then .fault (.fetchMisaligned s.pc)
  else
    match s.fetchInstr with
    | .error r => stopOf r
    | .ok (i, _) => exec i s

/-- `s` with the instruction of a word of spec/opcode_table.json placed so that the next step runs it (log entries 12
and 13). -/
def State.withFetchWord (s : State) (nbits w : Nat) : State := s.placeTableWord nbits w

end Sys2Proof.Machine
end

