-- ==== Sys2Proof/Machine/Asm.lean ====
section
/-! DEFINITION. The assembler the spec describes (spec/30_encoding.md R78 to R80, R82) and its inverse reading, a
disassembler that is told the mode and tracks it (R77). Neither is part of a step. -/

namespace Sys2Proof.Machine

/-- The mnemonic prefixes the page puts before `add` (R78). -/
inductive AddPrefix where
  | h
  | hs
  | c
  | cs
  | cst
  deriving DecidableEq, Repr

/-- A line of assembly, its operands read as numbers (R78, R79). -/
inductive AsmLine where
  | addi (rt ra : Nat) (immed : Int)
  | paddi (rt ra : Nat) (immed : Int)
  | add (pre : AddPrefix) (rt rs : Nat)
  | placeholder
  | cAddi (rt ra : Nat) (immed : Int)
  deriving DecidableEq, Repr

/-- Why the assembler rejects a line (R78, R80). -/
inductive AsmError where
  /-- Not a line of the syntax of R79. -/
  | badLine
  /-- Not one of R0 to R31. -/
  | noSuchRegister (n : Nat)
  /-- A register a 16-bit form cannot name. -/
  | notSmallRegister (n : Nat)
  | immediateOutOfRange (i : Int)
  /-- The mnemonic's prefix is not valid in the current decode mode (R78). -/
  | wrongMode (m : Mode)
  /-- `x.placeholder` has no bits of its own, and `c.addi` no encoding (R80). -/
  | noEncoding
  /-- An `addi` that `PREFIX_PO` = 14 takes away (R69). -/
  | readAsPrefix
  deriving DecidableEq, Repr

/-- A register operand of `addi` or `paddi` (R80). -/
def asmReg (n : Nat) : Except AsmError RegNum :=
  if n < 32 then .ok (BitVec.ofNat 5 n) else .error (.noSuchRegister n)

/-- A register operand of a 16-bit form, as its small-register code (R80, R82). -/
def asmSmall (n : Nat) : Except AsmError SmallCode := do
  let r ← asmReg n
  match smallCode r with
  | some c => .ok c
  | none => .error (.notSmallRegister n)

/-- An immediate of `w` bits, in the range of a signed number of that width (R80). -/
def asmImm (w : Nat) (i : Int) : Except AsmError (BitVec w) :=
  if -2 ^ (w - 1) ≤ i ∧ i < 2 ^ (w - 1) then .ok (BitVec.ofInt w i) else .error (.immediateOutOfRange i)

/-- The 16-bit instruction of a mnemonic prefix (R78). -/
def asmAdd : AddPrefix → SmallCode → SmallCode → Instr
  | .h, t, s => .hAdd t s
  | .hs, t, s => .hsAdd t s
  | .c, t, s => .cAdd t s
  | .cs, t, s => .csAdd t s
  | .cst, t, s => .cstAdd t s

/-- The instruction of one line, its mode left aside (R79, R80). -/
def assembleLine : AsmLine → Except AsmError Instr
  | .addi rt ra i => do
    let t ← asmReg rt
    let a ← asmReg ra
    let si ← asmImm 16 i
    .ok (.addi t a si)
  | .paddi rt ra i => do
    let t ← asmReg rt
    let a ← asmReg ra
    let im ← asmImm 34 i
    .ok (.paddi t a (im.extractLsb' 16 18) (im.extractLsb' 0 16))
  | .add pre rt rs => do
    let t ← asmSmall rt
    let s ← asmSmall rs
    .ok (asmAdd pre t s)
  | .placeholder => .error .noEncoding
  | .cAddi _ _ _ => .error .noEncoding

/-- One line in a decode mode: the mnemonic must be valid in it (R78) and have bits under `PREFIX_PO` (R69). -/
def assembleIn (p : PrefixPo) (m : Mode) (l : AsmLine) : Except AsmError Instr := do
  let i ← assembleLine l
  if i.mode ≠ m then .error (.wrongMode m)
  else if i.encodable p then .ok i
  else .error .readAsPrefix

/-- A program from a given mode on, the mode tracked by the mode update (R78, R28). -/
def assembleFrom (p : PrefixPo) (m : Mode) (swapBack : Bool) : List AsmLine → Except AsmError (List Instr)
  | [] => .ok []
  | l :: ls => do
    let i ← assembleIn p m l
    let is ← assembleFrom p (nextMode m swapBack i).1 (nextMode m swapBack i).2 ls
    .ok (i :: is)

/-- A program from its launch mode on, Standard (R35). -/
def assemble (p : PrefixPo) (ls : List AsmLine) : Except AsmError (List Instr) :=
  assembleFrom p .standard false ls

/-- The instruction stream of a program: the bytes of its instructions one after the other (R43, R82). -/
def streamOf (p : PrefixPo) (is : List Instr) : List Byte := is.flatMap (encode p)

/-- Read a stream back as instructions from a given mode on, stepping over `x.placeholder` by its six bytes (R77, R105),
up to the first bits that are no instruction; `fuel` bounds the number of instructions. -/
def disassembleFrom (p : PrefixPo) : Nat → Mode → Bool → List Byte → List Instr
  | 0, _, _, _ => []
  | fuel + 1, m, swapBack, bytes =>
    match decodeAt p false m (fetchFrom bytes) 0 with
    | .error _ => []
    | .ok (i, n) =>
      i :: disassembleFrom p fuel (nextMode m swapBack i).1 (nextMode m swapBack i).2 (bytes.drop n)

/-- Read a stream back from the launch mode on (R77). -/
def disassemble (p : PrefixPo) (bytes : List Byte) : List Instr :=
  disassembleFrom p bytes.length .standard false bytes

/-! ## The text of a line -/

/-- The value of a digit, capital or small (R79). -/
def digitOf (base : Nat) (c : Char) : Option Nat :=
  let d := if '0' ≤ c ∧ c ≤ '9' then c.toNat - 48
    else if 'a' ≤ c ∧ c ≤ 'f' then c.toNat - 87
    else if 'A' ≤ c ∧ c ≤ 'F' then c.toNat - 55
    else base
  if d < base then some d else none

/-- Digits after a value read so far. -/
def digitsFrom (base : Nat) : Nat → List Char → Option Nat
  | n, [] => some n
  | n, c :: cs => match digitOf base c with
    | some d => digitsFrom base (n * base + d) cs
    | none => none

/-- A number: one digit or more. -/
def numberOf (base : Nat) : List Char → Option Nat
  | [] => none
  | c :: cs => digitsFrom base 0 (c :: cs)

/-- A register: `R` and its decimal number (R79). -/
def regOfText : List Char → Option Nat
  | 'R' :: cs => numberOf 10 cs
  | _ => none

/-- An immediate without its sign: hexadecimal after `0x`, decimal otherwise (R79, R80). -/
def magnitudeOf : List Char → Option Nat
  | '0' :: 'x' :: cs => numberOf 16 cs
  | cs => numberOf 10 cs

/-- An immediate, a leading minus sign accepted (R80). -/
def immOfText : List Char → Option Int
  | '-' :: cs => (magnitudeOf cs).map fun n => -(n : Int)
  | cs => (magnitudeOf cs).map fun n => (n : Int)

/-- Operands are separated by a comma and a space (R79). -/
def operandsOf : List Char → List (List Char)
  | [] => [[]]
  | c :: cs => match c, cs, operandsOf cs with
    | ',', ' ' :: _, (_ :: w) :: ws => [] :: w :: ws
    | _, _, w :: ws => (c :: w) :: ws
    | _, _, [] => [[c]]

/-- The mnemonic and, after one space, the operands. -/
def splitMnemonic : List Char → List Char × List (List Char)
  | [] => ([], [])
  | ' ' :: cs => ([], operandsOf cs)
  | c :: cs => (c :: (splitMnemonic cs).1, (splitMnemonic cs).2)

/-- The mnemonic prefix of a 16-bit `add` (R78). -/
def addPrefixOf (m : List Char) : Option AddPrefix :=
  if m = ['h', '.', 'a', 'd', 'd'] then some .h
  else if m = ['h', 's', '.', 'a', 'd', 'd'] then some .hs
  else if m = ['c', '.', 'a', 'd', 'd'] then some .c
  else if m = ['c', 's', '.', 'a', 'd', 'd'] then some .cs
  else if m = ['c', 's', 't', '.', 'a', 'd', 'd'] then some .cst
  else none

/-- A line with two registers and an immediate. -/
def threeOperands (line : Nat → Nat → Int → AsmLine) (rt ra i : List Char) : Except AsmError AsmLine :=
  match regOfText rt, regOfText ra, immOfText i with
  | some t, some a, some v => .ok (line t a v)
  | _, _, _ => .error .badLine

/-- A line of text (R78, R79). -/
def parseLine (cs : List Char) : Except AsmError AsmLine :=
  match splitMnemonic cs with
  | (['a', 'd', 'd', 'i'], [t, a, i]) => threeOperands .addi t a i
  | (['p', 'a', 'd', 'd', 'i'], [t, a, i]) => threeOperands .paddi t a i
  | (['c', '.', 'a', 'd', 'd', 'i'], [t, a, i]) => threeOperands .cAddi t a i
  | (m, [t, s]) => match addPrefixOf m, regOfText t, regOfText s with
    | some pre, some rt, some rs => .ok (.add pre rt rs)
    | _, _, _ => .error .badLine
  | (m, []) => if m = ['x', '.', 'p', 'l', 'a', 'c', 'e', 'h', 'o', 'l', 'd', 'e', 'r'] then .ok .placeholder
    else .error .badLine
  | _ => .error .badLine

end Sys2Proof.Machine
end

