-- ==== Sys2Proof/Machine/Launch.lean ====
section
/-! DEFINITION. Launch (spec/70_reset_and_hazards.md R140, R141): the constraints on the run's constants
(spec/20_memory.md R41), the layout of a program's bytes as an image in each byte order (R45, R46), and the launch state
the host builds (spec/10_state.md R35). There is no reset mechanism. -/

namespace Sys2Proof.Machine

/-- `ENDIAN` as the host gives it, before `LE_XOR` is joined to it (R6). -/
inductive ByteOrder where
  | be
  | le
  deriving DecidableEq, Repr

/-- The arguments of `launch` (R140) with the two decode parameters of R6, each with the default R6 gives it:
`PREFIX_PO` 1, `PREFIX_CROSS_64B_FAULTS` true, and no `END_PC`, which then is the end of the image. -/
structure LaunchArgs where
  endian : ByteOrder
  leXor : Option LeXor
  prefixPo : PrefixPo := .one
  prefixCross64bFaults : Bool := true
  imageBase : Word
  image : List Byte
  entryPc : Word
  endPc : Option Word := none
  x0 : Vector Word 32
  deriving DecidableEq, Repr

/-- Why a launch is refused. -/
inductive LaunchRefusal where
  /-- `ENDIAN` = LE without `LE_XOR` (R46, R140). -/
  | leXorMissing
  /-- The constraints of R41 do not hold. -/
  | constraints
  deriving DecidableEq, Repr

/-- What `IMAGE_BASE` and the image's length must be multiples of: 2 in BE mode, `LE_XOR + 1` in LE mode (R41). -/
def imageGroup : Endian → Nat
  | .be => 2
  | .le .one => 2
  | .le .three => 4

/-- The constraints of R41 on the run's constants, for an image of `len` bytes. -/
abbrev constraintsHold (r : RunConsts) (len : Nat) : Prop :=
  r.imageBase.toNat + len < 2 ^ 64 ∧
  r.imageBase.toNat % imageGroup r.endian = 0 ∧ len % imageGroup r.endian = 0 ∧
  r.imageBase.toNat ≤ r.entryPc.toNat ∧ r.entryPc.toNat ≤ r.endPc.toNat ∧
  r.endPc.toNat ≤ r.imageBase.toNat + len ∧
  r.entryPc.toNat % 2 = 0 ∧ r.endPc.toNat % 2 = 0

/-- `END_PC` where the host gives none: the end of the image (R6). -/
def defaultEndPc (imageBase : Word) (image : List Byte) : Word := imageBase + BitVec.ofNat 64 image.length

/-- `END_PC` of a launch: the address the host gives, else the default (R6). -/
def LaunchArgs.endAddress (a : LaunchArgs) : Word :=
  match a.endPc with
  | some p => p
  | none => defaultEndPc a.imageBase a.image

/-- The byte order with `LE_XOR` joined to it; nothing for LE without it (R46). -/
def LaunchArgs.order (a : LaunchArgs) : Option Endian :=
  match a.endian, a.leXor with
  | .be, _ => some .be
  | .le, some x => some (.le x)
  | .le, none => none

/-- The run's constants of a launch. -/
def LaunchArgs.consts (a : LaunchArgs) (e : Endian) : RunConsts where
  endian := e
  prefixPo := a.prefixPo
  prefixCross64bFaults := a.prefixCross64bFaults
  imageBase := a.imageBase
  entryPc := a.entryPc
  endPc := a.endAddress

/-- The state a launch builds, for any 32 register values (R140, R35). -/
def LaunchArgs.state (a : LaunchArgs) (e : Endian) : State where
  x := a.x0
  pc := a.entryPc
  mode := .standard
  swapBack := false
  mem := Memory.ofImage a.imageBase.toNat a.image
  run := a.consts e

/-- `launch` (R140). -/
def launch (a : LaunchArgs) : Except LaunchRefusal State :=
  match a.order with
  | none => .error .leXorMissing
  | some e => if constraintsHold (a.consts e) a.image.length then .ok (a.state e) else .error .constraints

/-- The length of the image of a stream of `n` bytes: padded to a multiple of the group (R41). -/
def paddedLength (e : Endian) (n : Nat) : Nat := (n + imageGroup e - 1) / imageGroup e * imageGroup e

/-- The image of a stream, first byte at `IMAGE_BASE`: the byte at offset `k` is stream byte `k XOR e`, and `pad` where
the stream has none (R41, R44 to R46). -/
def layoutImage (e : Endian) (pad : Byte) (stream : List Byte) : List Byte :=
  (List.range (paddedLength e stream.length)).map fun k => stream.getD (k ^^^ xorMask e) pad

end Sys2Proof.Machine
end

