-- ==== Sys2Proof/Safety.lean ====
section
/-! DEFINITION. Runs and their three endings (spec/70_reset_and_hazards.md R143), and the invariant of the demo machine:
what a launch establishes and every step keeps (spec/20_memory.md R41, R48; spec/10_state.md R24, R26). -/

namespace Sys2Proof.Machine

/-- The three endings of a run (R143): final, a fault, a refusal. A fault or a refusal is given with the state it left
unchanged (spec/60_exceptions.md R120, R121). Only the first is success. -/
inductive Ending where
  | final (s : State)
  | fault (f : Fault) (s : State)
  | refused (r : Refusal) (s : State)
  deriving DecidableEq, Repr

/-- A run of at most `n` completed steps; nothing if it has not ended by then (R143). -/
def runFor : Nat → State → Option Ending
  | 0, s => if s.isFinal then some (.final s) else none
  | n + 1, s =>
    if s.isFinal then some (.final s)
    else
      match step s with
      | .next t => runFor n t
      | .fault f => some (.fault f s)
      | .refused r => some (.refused r s)

/-- The state after `n` completed steps; nothing where the run ended before (R143, R144). -/
def State.after : Nat → State → Option State
  | 0, s => some s
  | n + 1, s =>
    match step s with
    | .next t => State.after n t
    | .fault _ => none
    | .refused _ => none

/-- A run that ended in success (R143). -/
def Ending.success : Ending → Bool
  | .final _ => true
  | .fault _ _ => false
  | .refused _ _ => false

/-- The state a run ended in. -/
def Ending.state : Ending → State
  | .final s => s
  | .fault _ s => s
  | .refused _ s => s

/-- Two states hold the same registers, pc, mode and swap_back: the state of R20, the run's constants aside. -/
abbrev State.SameState (s t : State) : Prop :=
  s.x = t.x ∧ s.pc = t.pc ∧ s.mode = t.mode ∧ s.swapBack = t.swapBack

/-- Two runs ended alike, or neither has ended: the same ending, for the same reason, in the same state of R20. -/
def sameEnding : Option Ending → Option Ending → Prop
  | none, none => True
  | some (.final s), some (.final t) => s.SameState t
  | some (.fault f s), some (.fault g t) => f = g ∧ s.SameState t
  | some (.refused q s), some (.refused r t) => q = r ∧ s.SameState t
  | _, _ => False

/-- A state in which a step begins to fetch: not final (R143), and the pc even (R34 step 1). -/
abbrev State.Live (s : State) : Prop := s.isFinal = false ∧ s.pcIsOdd = false

/-- The stream holds these bytes from the pc on (R43, R47). -/
def State.HoldsAtPc (s : State) (bytes : List Byte) : Prop :=
  ∀ k b, bytes[k]? = some b → s.fetchByte (s.pc.toNat + k) = .ok b

/-- The parcel of the stream at an offset from the pc (R47). -/
def State.parcelAt (s : State) (k : Nat) : Except Reject Parcel := fetchParcel s.fetchByte (s.pc.toNat + k)

/-- The address just after the image (R41). -/
def State.imageEnd (s : State) : Nat := s.run.imageBase.toNat + s.mem.length

/-- The invariant: the launch constraints (R41), the image in one piece at `IMAGE_BASE` (R41), an even pc (R48) between
`ENTRY_PC` and the end of the image (R24), and a pending swap back only in Standard mode (R26). -/
abbrev State.Inv (s : State) : Prop :=
  constraintsHold s.run s.mem.length ∧
  Memory.contiguousFrom s.run.imageBase.toNat s.mem = true ∧
  s.pc.toNat % 2 = 0 ∧
  s.run.entryPc.toNat ≤ s.pc.toNat ∧ s.pc.toNat ≤ s.imageEnd ∧
  (s.swapBack = true → s.mode = .standard)

end Sys2Proof.Machine
end

