-- ==== Sys2Proof/Certificates/Slice0/Obligations.lean ====
section
/-! DEFINITION. The statements for the provers, from the numbered rules of spec/. Each docstring names the rule. -/

open Sys2Proof Sys2Proof.Machine

/-! ## Encoding and decoding -/

/-- Words written out from the formats R62 to R65 and R67 decode to the instructions they stand for (E1, E2, E4, E5, E7,
E8, VX2, VC1 of spec/95). -/
def Obligations.SpecWordsDecode : Prop :=
  decodeTableWord 32 0x38630015 = some (.addi 3 3 0x15) ∧
  decodeTableWord 64 0x0600000138632345 = some (.paddi 3 3 1 0x2345) ∧
  decodeTableWord 16 0x1402 = some (.hAdd 0 1) ∧
  decodeTableWord 16 0x1403 = some (.hsAdd 0 1) ∧
  decodeTableWord 48 0x03FFFFFDFFFF = some (.xPlaceholder 0x7FFF 0x3FE 0x1FFFF) ∧
  decodeTableWord 16 0x0402 = some (.cAdd 0 1) ∧
  decodeTableWord 16 0x0403 = some (.csAdd 0 1) ∧
  decodeTableWord 16 0x8403 = some (.cstAdd 0 1)

/-- R9: the page's MSB0 field is a shift and a mask. -/
def Obligations.FieldIsShiftAndMask : Prop :=
  ∀ (n : Nat) (insn : BitVec n) (a b : Nat), a ≤ b → b < n →
    (field insn a b).toNat = (insn.toNat >>> (n - 1 - b)) &&& ((1 <<< (b - a + 1)) - 1)

/-- Decode of encode is the instruction, for every well-formed instruction that `PREFIX_PO` can encode, at every pc and
whatever follows it in the stream (R82 is the inverse of R66, R69 and R74). A 64-bit form is placed where R50 allows it. -/
def Obligations.DecodeOfEncodeIsTheInstruction : Prop :=
  ∀ (p : PrefixPo) (cross : Bool) (fetch : Nat → Except Reject Byte) (pc : Word) (i : Instr),
    i.wellFormed = true → i.encodable p = true → (i.width = 8 → crosses64B cross pc = false) →
    (∀ k b, (encode p i)[k]? = some b → fetch (pc.toNat + k) = .ok b) →
    decodeAt p cross i.mode fetch pc = .ok (i, i.width)

/-- Encode of decode is the bytes: what either decoder reads as an instruction is that instruction's encoding, byte for
byte, but for the four `//` bits of a prefix (bits 9:10 and 12:13, the ones of 0x6C in its second byte; R71). -/
def Obligations.EncodeOfDecodeIsTheBytes : Prop :=
  ∀ (p : PrefixPo) (cross : Bool) (m : Mode) (fetch : Nat → Except Reject Byte) (pc : Word) (i : Instr) (n : Nat),
    decodeAt p cross m fetch pc = .ok (i, n) →
    ∀ k b, (encode p i)[k]? = some b →
      ∃ c, fetch (pc.toNat + k) = .ok c ∧ (if i.width = 8 ∧ k = 1 then c &&& 0x93#8 else c) = b

/-- What decodes is an instruction of the demo machine: well formed, of the mode it was decoded in, of its own width, and
one the chosen `PREFIX_PO` can encode (R27, R60, R65, R69). -/
def Obligations.DecodedInstructionIsWellFormed : Prop :=
  ∀ (p : PrefixPo) (cross : Bool) (m : Mode) (fetch : Nat → Except Reject Byte) (pc : Word) (i : Instr) (n : Nat),
    decodeAt p cross m fetch pc = .ok (i, n) →
    i.wellFormed = true ∧ i.mode = m ∧ n = i.width ∧ i.encodable p = true

/-- R71: the decoder ignores bits 9:10 and 12:13 of the prefix, and the encoder writes them as zero. -/
def Obligations.PaddiIgnoresReservedBits : Prop :=
  (∀ (p : PrefixPo) (cross : Bool) (fetch fetch' : Nat → Except Reject Byte) (pc : Word) (rt ra : RegNum)
      (si0 : BitVec 18) (si1 : BitVec 16) (b c : Byte),
    decodeStandard p cross fetch pc = .ok (.paddi rt ra si0 si1, 8) →
    fetch (pc.toNat + 1) = .ok b → fetch' (pc.toNat + 1) = .ok c → b &&& 0x93#8 = c &&& 0x93#8 →
    (∀ a, a ≠ pc.toNat + 1 → fetch' a = fetch a) →
    decodeStandard p cross fetch' pc = .ok (.paddi rt ra si0 si1, 8)) ∧
  (∀ (p : PrefixPo) (rt ra : RegNum) (si0 : BitVec 18) (si1 : BitVec 16) (b : Byte),
    (encode p (.paddi rt ra si0 si1))[1]? = some b → b &&& 0x6C#8 = 0#8)

/-- The Compressed-mode decoder by the match and mask numbers of R82, instead of the fields of R74: three of the masked
values are the three forms, with their codes at bits 6 to 4 and 3 to 1, and every other parcel faults (R75). -/
def Obligations.CompressedDecoderIsTheMaskTable : Prop :=
  ∀ (pc : Word) (h : Parcel),
    decodeCompressed pc h =
      if h &&& 0xFF81#16 = 0x0400#16 then .ok (.cAdd (h.extractLsb' 4 3) (h.extractLsb' 1 3), 2)
      else if h &&& 0xFF81#16 = 0x0401#16 then .ok (.csAdd (h.extractLsb' 4 3) (h.extractLsb' 1 3), 2)
      else if h &&& 0xFF81#16 = 0x8401#16 then .ok (.cstAdd (h.extractLsb' 4 3) (h.extractLsb' 1 3), 2)
      else .error (.illegalEncoding pc h)

/-- The Standard-mode decoder by the match and mask numbers of R82 (`PREFIX_PO` = 1): it gives a form only where the form's
masked bits are the form's match, and then with the operands at the form's lsb0 places. `v` is the value of the first 8
bytes, most significant first. -/
def Obligations.StandardDecoderIsTheMaskTable : Prop :=
  ∀ (fetch : Nat → Except Reject Byte) (pc : Word) (v : BitVec 64),
    (∀ k b, (bytesOf 8 v)[k]? = some b → fetch (pc.toNat + k) = .ok b) →
    (∀ srt srs, decodeStandard .one false fetch pc = .ok (.hAdd srt srs, 2) ↔
      v.extractLsb' 48 16 &&& 0xFF81#16 = 0x1400#16 ∧ v.extractLsb' 52 3 = srt ∧ v.extractLsb' 49 3 = srs) ∧
    (∀ srt srs, decodeStandard .one false fetch pc = .ok (.hsAdd srt srs, 2) ↔
      v.extractLsb' 48 16 &&& 0xFF81#16 = 0x1401#16 ∧ v.extractLsb' 52 3 = srt ∧ v.extractLsb' 49 3 = srs) ∧
    (∀ rt ra si, decodeStandard .one false fetch pc = .ok (.addi rt ra si, 4) ↔
      v.extractLsb' 32 32 &&& 0xFC000000#32 = 0x38000000#32 ∧
        v.extractLsb' 53 5 = rt ∧ v.extractLsb' 48 5 = ra ∧ v.extractLsb' 32 16 = si) ∧
    (∀ rt ra si0 si1, decodeStandard .one false fetch pc = .ok (.paddi rt ra si0 si1, 8) ↔
      v &&& 0xFF900000FC000000#64 = 0x0600000038000000#64 ∧
        v.extractLsb' 21 5 = rt ∧ v.extractLsb' 16 5 = ra ∧ v.extractLsb' 32 18 = si0 ∧ v.extractLsb' 0 16 = si1) ∧
    ((∃ high xo low, decodeStandard .one false fetch pc = .ok (.xPlaceholder high xo low, 6)) ↔
      v.extractLsb' 16 48 &&& 0xFC0000000000#48 = 0#48 ∧
        v.extractLsb' 16 48 &&& 0x000007FE0000#48 ≠ 0x000002000000#48)

/-- The encoding formulas of R82, as sums of shifted fields. -/
def Obligations.EncodingFormulas : Prop :=
  (∀ p rt ra si, encode p (.addi rt ra si) =
    bytesOf 4 (BitVec.ofNat 32 (0x38000000 + (rt.toNat <<< 21) + (ra.toNat <<< 16) + si.toNat))) ∧
  (∀ p rt ra si0 si1, encode p (.paddi rt ra si0 si1) =
    bytesOf 4 (BitVec.ofNat 32 ((match p with | .one => 0x06000000 | .fourteen => 0x3A000000) + si0.toNat)) ++
    bytesOf 4 (BitVec.ofNat 32 (0x38000000 + (rt.toNat <<< 21) + (ra.toNat <<< 16) + si1.toNat))) ∧
  (∀ p t s, encode p (.hAdd t s) = bytesOf 2 (BitVec.ofNat 16 (0x1400 + (t.toNat <<< 4) + (s.toNat <<< 1)))) ∧
  (∀ p t s, encode p (.hsAdd t s) = bytesOf 2 (BitVec.ofNat 16 (0x1401 + (t.toNat <<< 4) + (s.toNat <<< 1)))) ∧
  (∀ p t s, encode p (.cAdd t s) = bytesOf 2 (BitVec.ofNat 16 (0x0400 + (t.toNat <<< 4) + (s.toNat <<< 1)))) ∧
  (∀ p t s, encode p (.csAdd t s) = bytesOf 2 (BitVec.ofNat 16 (0x0401 + (t.toNat <<< 4) + (s.toNat <<< 1)))) ∧
  (∀ p t s, encode p (.cstAdd t s) = bytesOf 2 (BitVec.ofNat 16 (0x8401 + (t.toNat <<< 4) + (s.toNat <<< 1))))

/-- R70: in Standard mode the parcels with PO = 5 and SO other than 0 are 0x1480 to 0x17FF, and each ends the step in
`Fault.IllegalEncoding`, whatever bytes follow. -/
def Obligations.Po5WithNonzeroSoFaults : Prop :=
  (∀ h : Parcel, (field h 0 5 = 5#6 ∧ field h 6 8 ≠ 0#3) ↔ (0x1480 ≤ h.toNat ∧ h.toNat ≤ 0x17FF)) ∧
  (∀ (s : State) (h : Parcel), s.Live → s.mode = .standard → s.parcelAt 0 = .ok h →
    0x1480 ≤ h.toNat → h.toNat ≤ 0x17FF → step s = .fault (.illegalEncoding s.pc h))

/-- R72: a first word whose PO is none of 0, 5, `PREFIX_PO` and 14; a prefix word whose bits 6:7, 8, 11 are not 2, 0, 0
(with `PREFIX_PO` = 1; under 14 such a word is an `addi`, R69); a prefix whose suffix has PO other than 14. All end in
`Refuse.OutOfScope`, with the bits fetched. The prefix lies where R50 allows it. -/
def Obligations.OutOfScopeWordsAreRefused : Prop :=
  ∀ (s : State) (a b : Parcel), s.Live → s.mode = .standard → s.parcelAt 0 = .ok a → s.parcelAt 2 = .ok b →
    (∀ po : BitVec 6, field a 0 5 = po → po ≠ 0#6 → po ≠ 5#6 → po ≠ 14#6 →
      (s.run.prefixPo = .one → po ≠ 1#6) → step s = .refused (.outOfScope s.pc (.word (a ++ b)))) ∧
    (s.run.prefixPo = .one → field a 0 5 = 1#6 → crosses64B s.run.prefixCross64bFaults s.pc = false →
      ¬(field a 6 7 = 2#2 ∧ field a 8 8 = 0#1 ∧ field a 11 11 = 0#1) →
      step s = .refused (.outOfScope s.pc (.word (a ++ b)))) ∧
    (∀ c d : Parcel, field a 0 5 = s.run.prefixPo.value → crosses64B s.run.prefixCross64bFaults s.pc = false →
      field a 6 7 = 2#2 → field a 8 8 = 0#1 → field a 11 11 = 0#1 →
      s.parcelAt 4 = .ok c → s.parcelAt 6 = .ok d → field c 0 5 ≠ 14#6 →
      step s = .refused (.outOfScope s.pc (.pair ((a ++ b) ++ (c ++ d)))))

/-- The 48-bit class (R73, R105): with PO = 0, XO = 256 is refused as a 32-bit word of Power ISA; every other XO is
`x.placeholder`, refused with its 48 bits once its third parcel is fetched. The all-zero word is in the class. -/
def Obligations.PlaceholderClassIsRefused : Prop :=
  ∀ (s : State) (a b : Parcel), s.Live → s.mode = .standard → s.parcelAt 0 = .ok a → s.parcelAt 2 = .ok b →
    field a 0 5 = 0#6 →
    (field (a ++ b) 21 30 = 256#10 → step s = .refused (.outOfScope s.pc (.word (a ++ b)))) ∧
    (∀ c : Parcel, field (a ++ b) 21 30 ≠ 256#10 → s.parcelAt 4 = .ok c →
      step s = .refused (.placeholder s.pc ((a ++ b) ++ c)))

/-- `x.placeholder` itself: on every state and with any placeholder bits its meaning is the refusal, with its 48 bits,
and no next state (R105). -/
def Obligations.PlaceholderNeverExecutes : Prop :=
  ∀ (s : State) (high : BitVec 15) (xo : BitVec 10) (low : BitVec 17),
    exec (.xPlaceholder high xo low) s = .refused (.placeholder s.pc (0#6 ++ high ++ xo ++ low))

/-- R69: with `PREFIX_PO` = 14 a word with PO = 14 is a `paddi` prefix exactly when its masked bits are 0x3A000000, that
is when as an `addi` it would have RT in 16 to 19 and RA in 0 to 15. Such a word never decodes as `addi`; every other word
with PO = 14 does. -/
def Obligations.LiteralPrefixTakesAddiWords : Prop :=
  ∀ (cross : Bool) (fetch : Nat → Except Reject Byte) (pc : Word) (a b : Parcel),
    fetchParcel fetch pc.toNat = .ok a → fetchParcel fetch (pc.toNat + 2) = .ok b →
    ((a ++ b) &&& 0xFF900000#32 = 0x3A000000#32 ↔
      field a 0 5 = 14#6 ∧ 16 ≤ (field (a ++ b) 6 10).toNat ∧ (field (a ++ b) 6 10).toNat ≤ 19 ∧
        (field (a ++ b) 11 15).toNat ≤ 15) ∧
    ((a ++ b) &&& 0xFF900000#32 = 0x3A000000#32 →
      ∀ rt ra si n, decodeStandard .fourteen cross fetch pc ≠ .ok (.addi rt ra si, n)) ∧
    (field a 0 5 = 14#6 → (a ++ b) &&& 0xFF900000#32 ≠ 0x3A000000#32 →
      decodeStandard .fourteen cross fetch pc =
        .ok (.addi (field (a ++ b) 6 10) (field (a ++ b) 11 15) (field (a ++ b) 16 31), 4))

/-- Decode looks at no byte beyond the instruction it gives (R47): two streams that agree on the instruction's bytes
decode alike, so a 16-bit instruction at the end of the image needs nothing after it. -/
def Obligations.DecodeReadsOnlyItsBytes : Prop :=
  ∀ (p : PrefixPo) (cross : Bool) (m : Mode) (fetch fetch' : Nat → Except Reject Byte) (pc : Word) (i : Instr) (n : Nat),
    decodeAt p cross m fetch pc = .ok (i, n) →
    (∀ k, k < n → fetch' (pc.toNat + k) = fetch (pc.toNat + k)) →
    decodeAt p cross m fetch' pc = .ok (i, n)

/-! ## Operands -/

/-- R22: the small-register table, its formula, and that no code names any of the other 24 registers. -/
def Obligations.SmallRegisterTable : Prop :=
  (small 0#3 = 3#5 ∧ small 1#3 = 4#5 ∧ small 2#3 = 5#5 ∧ small 3#3 = 6#5 ∧
   small 4#3 = 28#5 ∧ small 5#3 = 29#5 ∧ small 6#3 = 30#5 ∧ small 7#3 = 31#5) ∧
  (∀ c : SmallCode, (small c).toNat = if c.toNat < 4 then c.toNat + 3 else c.toNat + 24) ∧
  (∀ r : RegNum, (∃ c, small c = r) ↔
    r = 3#5 ∨ r = 4#5 ∨ r = 5#5 ∨ r = 6#5 ∨ r = 28#5 ∨ r = 29#5 ∨ r = 30#5 ∨ r = 31#5)

/-- R68: what `addi` and `paddi` add, as signed numbers. SI ranges over -32768 to 32767; the immediate of `paddi` is
si0 times 2^16, si0 signed, plus si1 unsigned, so its sign is the top bit of si0. -/
def Obligations.ImmediatesAsIntegers : Prop :=
  (∀ si : BitVec 16, (sext64 si).toInt = si.toInt ∧ -32768 ≤ (sext64 si).toInt ∧ (sext64 si).toInt ≤ 32767) ∧
  (∀ (si0 : BitVec 18) (si1 : BitVec 16),
    (sext64 (imm34 si0 si1)).toInt = si0.toInt * 2 ^ 16 + si1.toNat ∧
    -2 ^ 33 ≤ (sext64 (imm34 si0 si1)).toInt ∧ (sext64 (imm34 si0 si1)).toInt ≤ 2 ^ 33 - 1 ∧
    ((sext64 (imm34 si0 si1)).toInt < 0 ↔ si0.msb = true))

/-! ## The instructions -/

/-- R90, `addi`: in Standard mode it completes, whatever the operands; and its word at the pc runs as it, but
for the words `PREFIX_PO` = 14 takes away (R69). RA = 0 is the constant 0. -/
def Obligations.AddiEffect : Prop :=
  ∀ (s : State) (rt ra : RegNum) (si : BitVec 16), s.mode = .standard →
    let t : State := { s with
      x := s.x.set rt.toNat ((if ra = 0#5 then 0#64 else s.x[ra.toNat]'ra.isLt) + si.signExtend 64) rt.isLt
      pc := s.pc + 4#64
      mode := if s.swapBack then .compressed else .standard
      swapBack := false }
    exec (.addi rt ra si) s = .next t ∧
    (s.Live → Instr.encodable s.run.prefixPo (.addi rt ra si) = true →
      s.HoldsAtPc (bytesOf 4 (BitVec.ofNat 32 (0x38000000 + rt.toNat * 2 ^ 21 + ra.toNat * 2 ^ 16 + si.toNat))) →
      step s = .next t)

/-- R95, `paddi`: in Standard mode it completes; and its prefix, the `//` bits at any value `z`, with its suffix at the
pc runs as it, but for the fault of R50. -/
def Obligations.PaddiEffect : Prop :=
  ∀ (s : State) (rt ra : RegNum) (si0 : BitVec 18) (si1 : BitVec 16), s.mode = .standard →
    let t : State := { s with
      x := s.x.set rt.toNat
        ((if ra = 0#5 then 0#64 else s.x[ra.toNat]'ra.isLt) + (si0 ++ si1 : BitVec 34).signExtend 64) rt.isLt
      pc := s.pc + 8#64
      mode := if s.swapBack then .compressed else .standard
      swapBack := false }
    exec (.paddi rt ra si0 si1) s = .next t ∧
    (∀ z : BitVec 32, s.Live → crosses64B s.run.prefixCross64bFaults s.pc = false →
      s.HoldsAtPc (bytesOf 4 ((match s.run.prefixPo with | .one => 0x06000000#32 | .fourteen => 0x3A000000#32)
          ||| (z &&& 0x006C0000#32) ||| si0.setWidth 32) ++
        bytesOf 4 (BitVec.ofNat 32 (0x38000000 + rt.toNat * 2 ^ 21 + ra.toNat * 2 ^ 16 + si1.toNat))) →
      step s = .next t)

/-- R100, `h.add`: in Standard mode it completes; and its parcel at the pc runs as it. -/
def Obligations.HAddEffect : Prop :=
  ∀ (s : State) (srt srs : SmallCode), s.mode = .standard →
    let t : State := { s with
      x := s.x.set (small srt).toNat
        (s.x[(small srt).toNat]'(small srt).isLt + s.x[(small srs).toNat]'(small srs).isLt) (small srt).isLt
      pc := s.pc + 2#64
      mode := if s.swapBack then .compressed else .standard
      swapBack := false }
    exec (.hAdd srt srs) s = .next t ∧
    (s.Live → s.HoldsAtPc (bytesOf 2 (BitVec.ofNat 16 (0x1400 + srt.toNat * 16 + srs.toNat * 2))) → step s = .next t)

/-- R101, `hs.add`: in Standard mode it completes and swaps to Compressed mode; and its parcel at the pc runs as it. -/
def Obligations.HsAddEffect : Prop :=
  ∀ (s : State) (srt srs : SmallCode), s.mode = .standard →
    let t : State := { s with
      x := s.x.set (small srt).toNat
        (s.x[(small srt).toNat]'(small srt).isLt + s.x[(small srs).toNat]'(small srs).isLt) (small srt).isLt
      pc := s.pc + 2#64
      mode := .compressed
      swapBack := false }
    exec (.hsAdd srt srs) s = .next t ∧
    (s.Live → s.HoldsAtPc (bytesOf 2 (BitVec.ofNat 16 (0x1401 + srt.toNat * 16 + srs.toNat * 2))) → step s = .next t)

/-- R110, `c.add`: in Compressed mode it completes and stays there; and its parcel at the pc runs as it. -/
def Obligations.CAddEffect : Prop :=
  ∀ (s : State) (srt srs : SmallCode), s.mode = .compressed →
    let t : State := { s with
      x := s.x.set (small srt).toNat
        (s.x[(small srt).toNat]'(small srt).isLt + s.x[(small srs).toNat]'(small srs).isLt) (small srt).isLt
      pc := s.pc + 2#64
      mode := .compressed
      swapBack := false }
    exec (.cAdd srt srs) s = .next t ∧
    (s.Live → s.HoldsAtPc (bytesOf 2 (BitVec.ofNat 16 (0x0400 + srt.toNat * 16 + srs.toNat * 2))) → step s = .next t)

/-- R111, `cs.add`: in Compressed mode it completes and swaps to Standard mode; and its parcel at the pc runs as it. -/
def Obligations.CsAddEffect : Prop :=
  ∀ (s : State) (srt srs : SmallCode), s.mode = .compressed →
    let t : State := { s with
      x := s.x.set (small srt).toNat
        (s.x[(small srt).toNat]'(small srt).isLt + s.x[(small srs).toNat]'(small srs).isLt) (small srt).isLt
      pc := s.pc + 2#64
      mode := .standard
      swapBack := false }
    exec (.csAdd srt srs) s = .next t ∧
    (s.Live → s.HoldsAtPc (bytesOf 2 (BitVec.ofNat 16 (0x0401 + srt.toNat * 16 + srs.toNat * 2))) → step s = .next t)

/-- R112, `cst.add`: in Compressed mode it completes and swaps to Standard mode with the swap back pending; and its parcel
at the pc runs as it. -/
def Obligations.CstAddEffect : Prop :=
  ∀ (s : State) (srt srs : SmallCode), s.mode = .compressed →
    let t : State := { s with
      x := s.x.set (small srt).toNat
        (s.x[(small srt).toNat]'(small srt).isLt + s.x[(small srs).toNat]'(small srs).isLt) (small srt).isLt
      pc := s.pc + 2#64
      mode := .standard
      swapBack := true }
    exec (.cstAdd srt srs) s = .next t ∧
    (s.Live → s.HoldsAtPc (bytesOf 2 (BitVec.ofNat 16 (0x8401 + srt.toNat * 16 + srs.toNat * 2))) → step s = .next t)

/-- R91: the one arithmetic operation is the sum modulo 2^64, read unsigned or signed: every form completes, whatever the
carry or the overflow, and the new register is the unsigned sum modulo 2^64 and the signed sum wrapped to 64 bits. -/
def Obligations.SumsWrapWithoutTrace : Prop :=
  (∀ (s : State) (i : Instr) (rt ra : RegNum) (imm : Word),
    (∃ si, i = .addi rt ra si ∧ imm = si.signExtend 64) ∨
      (∃ si0 si1, i = .paddi rt ra si0 si1 ∧ imm = (si0 ++ si1 : BitVec 34).signExtend 64) →
    ∃ t, exec i s = .next t ∧
    (t.reg rt).toNat = ((s.ra0 ra).toNat + imm.toNat) % 2 ^ 64 ∧
    (t.reg rt).toInt = ((s.ra0 ra).toInt + imm.toInt).bmod (2 ^ 64)) ∧
  (∀ (s : State) (i : Instr) (srt srs : SmallCode),
    i = .hAdd srt srs ∨ i = .hsAdd srt srs ∨ i = .cAdd srt srs ∨ i = .csAdd srt srs ∨ i = .cstAdd srt srs →
    ∃ t, exec i s = .next t ∧
    (t.reg (small srt)).toNat = ((s.reg (small srt)).toNat + (s.reg (small srs)).toNat) % 2 ^ 64 ∧
    (t.reg (small srt)).toInt = ((s.reg (small srt)).toInt + (s.reg (small srs)).toInt).bmod (2 ^ 64))

/-- The frame of the seven forms that complete (R21's access table, R30, R42): every register but the destination, every
byte of memory and every constant of the run are unchanged. The destination is RT for `addi` and `paddi` and
`small(SRT)` for the five 16-bit forms; the mode and swap_back are those of R28, and the pc may change. -/
def Obligations.FrameOfEveryForm : Prop :=
  ∀ (i : Instr) (s t : State) (dest : RegNum),
    (match i with
      | .addi rt _ _ => dest = rt
      | .paddi rt _ _ _ => dest = rt
      | .hAdd srt _ => dest = small srt
      | .hsAdd srt _ => dest = small srt
      | .xPlaceholder _ _ _ => False
      | .cAdd srt _ => dest = small srt
      | .csAdd srt _ => dest = small srt
      | .cstAdd srt _ => dest = small srt) →
    exec i s = .next t →
    (∀ r, r ≠ dest → t.reg r = s.reg r) ∧ (∀ a, Memory.read t.mem a = Memory.read s.mem a) ∧
    t.mem = s.mem ∧ t.run = s.run ∧ (t.mode, t.swapBack) = nextMode s.mode s.swapBack i

/-- R21: as the RA operand, register 0 is never read: whatever `x[0]` holds, `addi` and `paddi` with RA = 0 write the
same value, and leave every register but `x[0]` the same. -/
def Obligations.RaZeroNeverReadsRegisterZero : Prop :=
  ∀ (s : State) (v : Word) (rt : RegNum) (i : Instr),
    (∃ si, i = .addi rt 0#5 si) ∨ (∃ si0 si1, i = .paddi rt 0#5 si0 si1) →
    ∃ t u, exec i s = .next t ∧ exec i (s.setReg 0#5 v) = .next u ∧
      t.reg rt = u.reg rt ∧ (∀ r, r ≠ 0#5 → t.reg r = u.reg r) ∧
      t.pc = u.pc ∧ t.mode = u.mode ∧ t.swapBack = u.swapBack

/-! ## The step -/

/-- R34: a step of a live state whose bytes at the pc decode to `i` is `exec i`, which advances the pc and updates the
mode itself; nothing is added around it. A final state has no step (the model answers the refusal `final`, log entry 6);
an odd pc faults; a rejection by decode is the step's terminal outcome. -/
def Obligations.StepRunsTheDecodedInstruction : Prop :=
  ∀ s : State,
    (s.isFinal = true → step s = .refused (.final s.pc)) ∧
    (s.isFinal = false → s.pcIsOdd = true → step s = .fault (.fetchMisaligned s.pc)) ∧
    (∀ r, s.Live → s.fetchInstr = .error r → step s = stopOf r) ∧
    (∀ i n, s.Live → s.fetchInstr = .ok (i, n) → step s = exec i s)

/-- R24: a step that completes advances the pc by the width of the form it decoded, 2, 4 or 8 bytes, and by nothing else;
and under the invariant the sum does not wrap and does not pass the end of the image. -/
def Obligations.CompletedStepAdvancesByTheWidth : Prop :=
  ∀ s t : State, step s = .next t →
    ∃ i n, s.fetchInstr = .ok (i, n) ∧ t.pc = s.pc + BitVec.ofNat 64 n ∧
      (match i with
        | .addi _ _ _ => n = 4
        | .paddi _ _ _ _ => n = 8
        | .hAdd _ _ => n = 2
        | .hsAdd _ _ => n = 2
        | .xPlaceholder _ _ _ => False
        | .cAdd _ _ => n = 2
        | .csAdd _ _ => n = 2
        | .cstAdd _ _ => n = 2) ∧
      (s.Inv → t.pc.toNat = s.pc.toNat + n ∧ t.pc.toNat ≤ s.imageEnd)

/-- R28: the mode update of a completing step, clause by clause. -/
def Obligations.ModeUpdateOfAStep : Prop :=
  ∀ (s t : State) (i : Instr) (n : Nat), (s.swapBack = true → s.mode = .standard) →
    s.fetchInstr = .ok (i, n) → step s = .next t →
    (s.mode = .standard → s.swapBack = true → t.mode = .compressed ∧ t.swapBack = false) ∧
    (s.mode = .standard → s.swapBack = false →
      ((∃ a b, i = .hsAdd a b) → t.mode = .compressed ∧ t.swapBack = false) ∧
      ((¬∃ a b, i = .hsAdd a b) → t.mode = .standard ∧ t.swapBack = false)) ∧
    (s.mode = .compressed →
      (∃ a b, i = .cAdd a b ∧ t.mode = .compressed ∧ t.swapBack = false) ∨
      (∃ a b, i = .csAdd a b ∧ t.mode = .standard ∧ t.swapBack = false) ∨
      (∃ a b, i = .cstAdd a b ∧ t.mode = .standard ∧ t.swapBack = true))

/-- R26: swap_back is true exactly between the completion of a `cst.` and that of the one Standard-mode instruction after
it: after a completed step it is true exactly when that step was a `cst.add`, it is then Standard mode, and it never
survives the next completed step. No launch state breaks the invariant. -/
def Obligations.SwapBackFollowsCstOnly : Prop :=
  (∀ s t : State, step s = .next t →
    (t.swapBack = true ↔ ∃ a b, s.fetchInstr = .ok (.cstAdd a b, 2)) ∧
    (t.swapBack = true → t.mode = .standard) ∧
    (∀ u, t.swapBack = true → step t = .next u → u.swapBack = false)) ∧
  (∀ (a : LaunchArgs) (s : State), launch a = .ok s → s.swapBack = true → s.mode = .standard)

/-- A temporary swap lasts one whole instruction, of any width: the step after a `cst.add` is decoded in Standard mode, and
when it completes the mode is Compressed again, also after an `hs.add` (R112, R28). -/
def Obligations.TemporarySwapLastsOneInstruction : Prop :=
  ∀ (s t u : State) (a b : SmallCode), s.fetchInstr = .ok (.cstAdd a b, 2) → step s = .next t → step t = .next u →
    t.mode = .standard ∧ u.mode = .compressed ∧ u.swapBack = false ∧
    ∃ i n, t.fetchInstr = .ok (i, n) ∧ i.mode = .standard ∧ (n = 2 ∨ n = 4 ∨ n = 8)

/-- Only `hs.add`, `cs.add`, `cst.add` and the return from a temporary swap change the decode mode (R131, R113). -/
def Obligations.OnlySwapsChangeTheMode : Prop :=
  ∀ s t : State, step s = .next t → t.mode ≠ s.mode →
    s.swapBack = true ∨
    ∃ a b, s.fetchInstr = .ok (.hsAdd a b, 2) ∨ s.fetchInstr = .ok (.csAdd a b, 2) ∨ s.fetchInstr = .ok (.cstAdd a b, 2)

/-- In Compressed mode no step changes any of the 24 registers that a 16-bit instruction cannot name (R21, R22). -/
def Obligations.CompressedModeKeepsUnnameableRegisters : Prop :=
  ∀ (s t : State) (r : RegNum), s.mode = .compressed → step s = .next t →
    ¬(3 ≤ r.toNat ∧ r.toNat ≤ 6) → ¬(28 ≤ r.toNat ∧ r.toNat ≤ 31) → t.reg r = s.reg r

/-- R42: memory and the other constants of the run are the same at every step and at the end of every run, so every fetch
of a run from one address gives the same byte, and decode at one pc in one mode the same answer. -/
def Obligations.MemoryIsConstantForTheRun : Prop :=
  (∀ s t : State, step s = .next t → t.mem = s.mem ∧ t.run = s.run) ∧
  (∀ (n : Nat) (s : State) (e : Ending), runFor n s = some e →
    e.state.mem = s.mem ∧ e.state.run = s.run ∧ (∀ a, e.state.fetchByte a = s.fetchByte a) ∧
    ∀ m pc, ({ e.state with mode := m, pc := pc } : State).fetchInstr = ({ s with mode := m, pc := pc } : State).fetchInstr)

/-! ## Fetch -/

/-- R44: `FetchByte(a)` on an image in one piece. -/
def Obligations.FetchByteIsTheImageByte : Prop :=
  ∀ (s : State) (a : Word), Memory.contiguousFrom s.run.imageBase.toNat s.mem = true →
    let e : Word := match s.run.endian with
      | .be => 0#64
      | .le .one => 1#64
      | .le .three => 3#64
    let p := (a ^^^ e).toNat
    s.fetchByte a.toNat =
      if p < s.run.imageBase.toNat ∨ s.run.imageBase.toNat + s.mem.length ≤ p then .error (.fetchOutsideImage a.toNat)
      else match s.mem[p - s.run.imageBase.toNat]? with
        | some c => .ok c.2
        | none => .error (.fetchOutsideImage a.toNat)

/-- The layouts of R45 and R46 invert the address permutation of R44: a stream laid out for its byte order at an aligned
base, and padded, is fetched back byte for byte from `IMAGE_BASE` on, in all three layouts. -/
def Obligations.LaidOutStreamIsFetchedBack : Prop :=
  ∀ (s : State) (pad : Byte) (stream : List Byte) (k : Nat) (b : Byte),
    s.run.imageBase.toNat % imageGroup s.run.endian = 0 →
    s.mem = Memory.ofImage s.run.imageBase.toNat (layoutImage s.run.endian pad stream) →
    stream[k]? = some b → s.fetchByte (s.run.imageBase.toNat + k) = .ok b

/-- A fetch fault names the first missing byte of the instruction: it is one of the eight bytes from the pc on, it is
outside the image, and every byte before it was fetched (R49, R122). -/
def Obligations.FetchFaultNamesFirstMissingByte : Prop :=
  ∀ (s : State) (a : Nat), step s = .fault (.fetchOutsideImage a) →
    s.pc.toNat ≤ a ∧ a < s.pc.toNat + 8 ∧ s.fetchByte a = .error (.fetchOutsideImage a) ∧
    ∀ b, s.pc.toNat ≤ b → b < a → ∃ c, s.fetchByte b = .ok c

/-- R50: with the parameter on, a prefix (PO = `PREFIX_PO`; under 14 only the words R69 takes as prefixes) at
`pc mod 64 > 56` faults, the pc being even exactly at 58, 60 and 62; with it off there is no such fault. -/
def Obligations.PrefixMayNotCross64Bytes : Prop :=
  (∀ (s : State) (a b : Parcel), s.Live → s.mode = .standard → s.run.prefixCross64bFaults = true →
    s.parcelAt 0 = .ok a → s.parcelAt 2 = .ok b → field a 0 5 = s.run.prefixPo.value →
    (s.run.prefixPo = .fourteen → field a 6 7 = 2#2 ∧ field a 8 8 = 0#1 ∧ field a 11 11 = 0#1) →
    s.pc.toNat % 64 = 58 ∨ s.pc.toNat % 64 = 60 ∨ s.pc.toNat % 64 = 62 →
    step s = .fault (.prefixCrosses64B s.pc)) ∧
  (∀ (s : State) (q : Word), step s = .fault (.prefixCrosses64B q) →
    q = s.pc ∧ s.mode = .standard ∧ s.run.prefixCross64bFaults = true ∧
    (s.pc.toNat % 64 = 58 ∨ s.pc.toNat % 64 = 60 ∨ s.pc.toNat % 64 = 62))

/-- R48: an odd pc faults before any byte is fetched, and a completed step leaves an even pc. -/
def Obligations.PcStaysEven : Prop :=
  (∀ s : State, s.isFinal = false → s.pc.toNat % 2 = 1 → step s = .fault (.fetchMisaligned s.pc)) ∧
  (∀ s t : State, step s = .next t → s.pc.toNat % 2 = 0 ∧ t.pc.toNat % 2 = 0)

/-! ## Terminal outcomes -/

/-- R122: every fault, its cause and what it records; and no form faults in execution. -/
def Obligations.EveryFaultHasItsCause : Prop :=
  (∀ (i : Instr) (s : State) (f : Fault), exec i s ≠ .fault f) ∧
  ∀ (s : State) (f : Fault), step s = .fault f →
    match f with
    | .fetchMisaligned q => q = s.pc ∧ s.pc.toNat % 2 = 1
    | .fetchOutsideImage a => s.fetchByte a = .error (.fetchOutsideImage a) ∧ s.pc.toNat ≤ a ∧ a < s.pc.toNat + 8
    | .prefixCrosses64B q => q = s.pc ∧ s.mode = .standard ∧ s.run.prefixCross64bFaults = true ∧
        s.pc.toNat % 64 > 56 ∧ ∃ h, s.parcelAt 0 = .ok h ∧ field h 0 5 = s.run.prefixPo.value
    | .illegalEncoding q h => q = s.pc ∧ s.parcelAt 0 = .ok h ∧
        ((s.mode = .standard ∧ field h 0 5 = 5#6 ∧ field h 6 8 ≠ 0#3) ∨
         (s.mode = .compressed ∧
           (field h 1 5 ≠ 1#5 ∨ field h 6 8 ≠ 0#3 ∨ (field h 0 0 = 1#1 ∧ field h 15 15 = 0#1))))

/-- Every refusal of a step, its cause and what it records (R123); besides them only `final`, which is the model's answer
where no step exists (log entry 6). -/
def Obligations.EveryRefusalHasItsCause : Prop :=
  ∀ (s : State) (r : Refusal), step s = .refused r →
    match r with
    | .notModelled _ => False
    | .final q => q = s.pc ∧ s.pc = s.run.endPc
    | .placeholder q v => q = s.pc ∧ s.mode = .standard ∧ s.HoldsAtPc (bytesOf 6 v) ∧
        field v 0 5 = 0#6 ∧ field v 21 30 ≠ 256#10
    | .outOfScope q (.word w) => q = s.pc ∧ s.mode = .standard ∧ s.HoldsAtPc (bytesOf 4 w) ∧
        ((field w 0 5 ≠ 0#6 ∧ field w 0 5 ≠ 5#6 ∧ field w 0 5 ≠ s.run.prefixPo.value ∧ field w 0 5 ≠ 14#6) ∨
         (field w 0 5 = 0#6 ∧ field w 21 30 = 256#10) ∨
         (field w 0 5 = s.run.prefixPo.value ∧ ¬(field w 6 7 = 2#2 ∧ field w 8 8 = 0#1 ∧ field w 11 11 = 0#1)))
    | .outOfScope q (.pair v) => q = s.pc ∧ s.mode = .standard ∧ s.HoldsAtPc (bytesOf 8 v) ∧
        field v 0 5 = s.run.prefixPo.value ∧ field v 32 37 ≠ 14#6

/-- R128: the order of the terminal outcomes of one instruction, clause by clause, with `PREFIX_PO` = 1. -/
def Obligations.TerminalOutcomesInOrder : Prop :=
  ∀ s : State, s.isFinal = false → s.run.prefixPo = .one →
    (s.pc.toNat % 2 = 1 → step s = .fault (.fetchMisaligned s.pc)) ∧
    (∀ a, s.pcIsOdd = false → s.parcelAt 0 = .error (.fetchOutsideImage a) → step s = .fault (.fetchOutsideImage a)) ∧
    (∀ h, s.pcIsOdd = false → s.mode = .standard → s.parcelAt 0 = .ok h → field h 0 5 = 5#6 →
      (field h 6 8 ≠ 0#3 → step s = .fault (.illegalEncoding s.pc h)) ∧
      (field h 6 8 = 0#3 → ∃ t, step s = .next t)) ∧
    (∀ h a, s.pcIsOdd = false → s.mode = .standard → s.parcelAt 0 = .ok h → field h 0 5 ≠ 5#6 →
      s.parcelAt 2 = .error (.fetchOutsideImage a) → step s = .fault (.fetchOutsideImage a)) ∧
    (∀ h g, s.pcIsOdd = false → s.mode = .standard → s.parcelAt 0 = .ok h → s.parcelAt 2 = .ok g →
      (field h 0 5 = 0#6 →
        (field (h ++ g) 21 30 = 256#10 → step s = .refused (.outOfScope s.pc (.word (h ++ g)))) ∧
        (∀ a, field (h ++ g) 21 30 ≠ 256#10 → s.parcelAt 4 = .error (.fetchOutsideImage a) →
          step s = .fault (.fetchOutsideImage a)) ∧
        (∀ c, field (h ++ g) 21 30 ≠ 256#10 → s.parcelAt 4 = .ok c →
          step s = .refused (.placeholder s.pc ((h ++ g) ++ c)))) ∧
      (field h 0 5 = 1#6 →
        (s.run.prefixCross64bFaults = true → s.pc.toNat % 64 > 56 → step s = .fault (.prefixCrosses64B s.pc)) ∧
        (¬(s.run.prefixCross64bFaults = true ∧ s.pc.toNat % 64 > 56) →
          (isPaddiPrefix (h ++ g) = false → step s = .refused (.outOfScope s.pc (.word (h ++ g)))) ∧
          (isPaddiPrefix (h ++ g) = true →
            (∀ a, s.parcelAt 4 = .error (.fetchOutsideImage a) → step s = .fault (.fetchOutsideImage a)) ∧
            (∀ c a, s.parcelAt 4 = .ok c → s.parcelAt 6 = .error (.fetchOutsideImage a) →
              step s = .fault (.fetchOutsideImage a)) ∧
            (∀ c d, s.parcelAt 4 = .ok c → s.parcelAt 6 = .ok d → field c 0 5 ≠ 14#6 →
              step s = .refused (.outOfScope s.pc (.pair ((h ++ g) ++ (c ++ d)))))))) ∧
      (field h 0 5 ≠ 0#6 → field h 0 5 ≠ 1#6 → field h 0 5 ≠ 5#6 → field h 0 5 ≠ 14#6 →
        step s = .refused (.outOfScope s.pc (.word (h ++ g))))) ∧
    (∀ h, s.pcIsOdd = false → s.mode = .compressed → s.parcelAt 0 = .ok h →
      (field h 1 5 ≠ 1#5 ∨ field h 6 8 ≠ 0#3 ∨ (field h 0 0 = 1#1 ∧ field h 15 15 = 0#1)) →
      step s = .fault (.illegalEncoding s.pc h))

/-- R143: a run has one of three endings, and each is what it says: final exactly at `END_PC`, a fault or a refusal the
terminal outcome of the step from the last state, which is not final. -/
def Obligations.EveryEndingIsWhatItSays : Prop :=
  ∀ (n : Nat) (s : State) (e : Ending), runFor n s = some e →
    match e with
    | .final t => t.pc = t.run.endPc
    | .fault f t => t.pc ≠ t.run.endPc ∧ step t = .fault f
    | .refused r t => t.pc ≠ t.run.endPc ∧ step t = .refused r

/-! ## Launch, invariant, runs -/

/-- R140: a launch is refused exactly when `ENDIAN` = LE comes without `LE_XOR` or a constraint of R41 fails; otherwise its
state has the 32 given register values, pc = `ENTRY_PC`, Standard mode, no swap back, and holds `IMAGE` at `IMAGE_BASE` and
nothing anywhere else. `END_PC` is the address the host gives, and without one the end of the image (R6). -/
def Obligations.LaunchBuildsTheLaunchState : Prop :=
  ∀ a : LaunchArgs,
    (launch a = .error .leXorMissing ↔ a.endian = .le ∧ a.leXor = none) ∧
    (∀ e, a.order = some e → ¬constraintsHold (a.consts e) a.image.length → launch a = .error .constraints) ∧
    (∀ e, a.order = some e → constraintsHold (a.consts e) a.image.length →
      ∃ s, launch a = .ok s ∧ s.x = a.x0 ∧ s.pc = a.entryPc ∧ s.mode = .standard ∧ s.swapBack = false ∧
        s.run = a.consts e ∧
        (∀ p, a.endPc = some p → s.run.endPc = p) ∧
        (a.endPc = none → s.run.endPc.toNat = a.imageBase.toNat + a.image.length) ∧
        (∀ k, k < a.image.length → Memory.read s.mem (a.imageBase.toNat + k) = a.image[k]?) ∧
        (∀ p, p < a.imageBase.toNat ∨ a.imageBase.toNat + a.image.length ≤ p → Memory.read s.mem p = none))

/-- Every launch state meets the invariant (R41, R35, R26). -/
def Obligations.LaunchMeetsTheInvariant : Prop :=
  ∀ (a : LaunchArgs) (s : State), launch a = .ok s → s.Inv ∧ Memory.wf s.mem

/-- The reset state meets the invariant and is the launch state of the model's chosen arguments, every other argument at
its default (R6), with the values R35 gives: pc = `ENTRY_PC`, Standard mode, no swap back. The zero registers, BE and the
empty image are the model's own choices (log entries 1 and 2). -/
def Obligations.ResetMeetsTheInvariant : Prop :=
  State.reset.Inv ∧ Memory.wf State.reset.mem ∧
  State.reset.pc = State.reset.run.entryPc ∧ State.reset.mode = .standard ∧ State.reset.swapBack = false ∧
  launch { endian := .be, leXor := none, imageBase := 0x1000#64,
           image := [], entryPc := 0x1000#64, x0 := State.reset.x } = .ok State.reset

/-- Every step keeps the invariant: the launch constraints, the image in one piece, an even pc between `ENTRY_PC` and the
end of the image, a pending swap back only in Standard mode (R24, R26, R41, R42, R48). -/
def Obligations.EveryStepKeepsTheInvariant : Prop :=
  ∀ s t : State, s.Inv → step s = .next t → t.Inv

/-- R144: every run ends, and soon. From any state that meets the invariant the pc grows by at least 2 with every
completed step, no run has more completed steps than half the bytes left of the image, and every run has an ending. -/
def Obligations.EveryRunEnds : Prop :=
  ∀ s : State, s.Inv →
    (∀ n t, s.after n = some t → s.pc.toNat + 2 * n ≤ t.pc.toNat ∧ n ≤ (s.imageEnd - s.pc.toNat) / 2) ∧
    ∃ e, runFor ((s.imageEnd - s.pc.toNat) / 2 + 1) s = some e

/-- The three layouts give the same runs (spec/20 R45, R46; spec/95 part 3, "the final state is the same in all three
layouts"): two runs of one stream, a multiple of four bytes, from states that differ only in the byte order and the image
laid out for it, end alike. -/
def Obligations.ByteOrderDoesNotChangeTheRun : Prop :=
  ∀ (s t : State) (pad pad' : Byte) (stream : List Byte) (e : Endian),
    s.run.imageBase.toNat % 4 = 0 → stream.length % 4 = 0 →
    s.mem = Memory.ofImage s.run.imageBase.toNat (layoutImage s.run.endian pad stream) →
    t = { s with
      mem := Memory.ofImage s.run.imageBase.toNat (layoutImage e pad' stream)
      run := { s.run with endian := e } } →
    ∀ n, sameEnding (runFor n s) (runFor n t)

/-! ## The assembler -/

/-- What the assembler accepts (R80): `addi` and `paddi` exactly with register numbers below 32 and an immediate in the
signed range of 16 or 34 bits, which it writes modulo 2^16 or 2^34; the 16-bit forms exactly with two of the eight small
registers, coded as R22 says; `x.placeholder` and `c.addi` never. -/
def Obligations.AssemblerAcceptsExactly : Prop :=
  (∀ (rt ra : Nat) (v : Int) (i : Instr), assembleLine (.addi rt ra v) = .ok i ↔
    rt < 32 ∧ ra < 32 ∧ -32768 ≤ v ∧ v ≤ 32767 ∧
      i = .addi (BitVec.ofNat 5 rt) (BitVec.ofNat 5 ra) (BitVec.ofInt 16 v)) ∧
  (∀ (rt ra : Nat) (v : Int) (i : Instr), assembleLine (.paddi rt ra v) = .ok i ↔
    rt < 32 ∧ ra < 32 ∧ -2 ^ 33 ≤ v ∧ v ≤ 2 ^ 33 - 1 ∧
      ∃ si0 si1, i = .paddi (BitVec.ofNat 5 rt) (BitVec.ofNat 5 ra) si0 si1 ∧ imm34 si0 si1 = BitVec.ofInt 34 v) ∧
  (∀ (pre : AddPrefix) (rt rs : Nat) (i : Instr), assembleLine (.add pre rt rs) = .ok i ↔
    ∃ t s : SmallCode, (small t).toNat = rt ∧ (small s).toNat = rs ∧ i = asmAdd pre t s) ∧
  (∀ i, assembleLine .placeholder ≠ .ok i) ∧ (∀ rt ra v i, assembleLine (.cAddi rt ra v) ≠ .ok i)

/-- What is assembled reads back: the disassembler, told the launch mode and tracking it, reads the stream of every
program the assembler accepts as that program, whatever widths and swaps it holds (R77, R78, R82, R28). -/
def Obligations.AssembledProgramReadsBack : Prop :=
  ∀ (p : PrefixPo) (ls : List AsmLine) (is : List Instr), assemble p ls = .ok is →
    disassemble p (streamOf p is) = is
end

