-- ==== Sys2Proof/Laws/Fields.lean ====
section
/-! SUPPORT. Fields and words as natural numbers, so that what a field of a word is is a fact about division and
remainder; the fields of every word the encoder writes; and the parcels of a stream that holds a value's bytes. -/

namespace Sys2Proof

/-- A concatenation as a number. -/
theorem toNat_cat {m n : Nat} (x : BitVec m) (y : BitVec n) : (x ++ y).toNat = x.toNat * 2 ^ n + y.toNat := by
  rw [BitVec.toNat_append, ← Nat.shiftLeft_add_eq_or_of_lt y.isLt, Nat.shiftLeft_eq]

/-- A field as a number (spec/00_scope.md R9). -/
theorem field_toNat {n : Nat} (insn : BitVec n) (a b : Nat) :
    (field insn a b).toNat = insn.toNat / 2 ^ (n - 1 - b) % 2 ^ (b - a + 1) := by
  rw [field, BitVec.extractLsb'_toNat, Nat.shiftRight_eq_div_pow]

/-! ## The words of the encoder as numbers -/

theorem wordH16_toNat (t s : SmallCode) (c : BitVec 1) :
    (wordH16 t s c).toNat = 0x1400 + t.toNat * 2 ^ 4 + s.toNat * 2 + c.toNat := by
  have h : (wordH16 t s c).toNat = (((5 * 2 ^ 3 + 0) * 2 ^ 3 + t.toNat) * 2 ^ 3 + s.toNat) * 2 ^ 1 + c.toNat :=
    (toNat_cat _ _).trans (by rw [toNat_cat, toNat_cat, toNat_cat]; rfl)
  omega

theorem wordC16_toNat (m : BitVec 1) (t s : SmallCode) (c : BitVec 1) :
    (wordC16 m t s c).toNat = m.toNat * 2 ^ 15 + 0x0400 + t.toNat * 2 ^ 4 + s.toNat * 2 + c.toNat := by
  have h : (wordC16 m t s c).toNat =
      ((((m.toNat * 2 ^ 5 + 1) * 2 ^ 3 + 0) * 2 ^ 3 + t.toNat) * 2 ^ 3 + s.toNat) * 2 ^ 1 + c.toNat :=
    (toNat_cat _ _).trans (by rw [toNat_cat, toNat_cat, toNat_cat, toNat_cat]; rfl)
  omega

theorem wordS32_toNat (rt ra : RegNum) (si : BitVec 16) :
    (wordS32 rt ra si).toNat = 0x38000000 + rt.toNat * 2 ^ 21 + ra.toNat * 2 ^ 16 + si.toNat := by
  have h : (wordS32 rt ra si).toNat = ((14 * 2 ^ 5 + rt.toNat) * 2 ^ 5 + ra.toNat) * 2 ^ 16 + si.toNat :=
    (toNat_cat _ _).trans (by rw [toNat_cat, toNat_cat]; rfl)
  omega

theorem wordP64_toNat (p : PrefixPo) (si0 : BitVec 18) :
    (wordP64 p si0).toNat = p.value.toNat * 2 ^ 26 + 0x02000000 + si0.toNat := by
  have h : (wordP64 p si0).toNat =
      (((((p.value.toNat * 2 ^ 2 + 2) * 2 ^ 1 + 0) * 2 ^ 2 + 0) * 2 ^ 1 + 0) * 2 ^ 2 + 0) * 2 ^ 18 + si0.toNat :=
    (toNat_cat _ _).trans (by rw [toNat_cat, toNat_cat, toNat_cat, toNat_cat, toNat_cat]; rfl)
  omega

theorem wordX48_toNat (high : BitVec 15) (xo : BitVec 10) (low : BitVec 17) :
    (wordX48 high xo low).toNat = high.toNat * 2 ^ 27 + xo.toNat * 2 ^ 17 + low.toNat := by
  have h : (wordX48 high xo low).toNat = (high.toNat * 2 ^ 10 + xo.toNat) * 2 ^ 17 + low.toNat :=
    (toNat_cat _ _).trans (by
      rw [toNat_cat, toNat_cat, show poX48.toNat = 0 from rfl, Nat.zero_mul, Nat.zero_add])
  rw [h, Nat.add_mul, Nat.mul_assoc, ← Nat.pow_add]

/-! ## The fields of the encoder's words (spec/30_encoding.md R62 to R67) -/

section
variable (t s : SmallCode) (m c : BitVec 1)

@[simp] theorem wordH16_po : field (wordH16 t s c) 0 5 = poH16 := BitVec.eq_of_toNat_eq (by
  rw [field_toNat, wordH16_toNat]; show _ = 5; omega)
@[simp] theorem wordH16_so : field (wordH16 t s c) 6 8 = 0#3 := BitVec.eq_of_toNat_eq (by
  rw [field_toNat, wordH16_toNat]; show _ = 0; omega)
@[simp] theorem wordH16_srt : field (wordH16 t s c) 9 11 = t := BitVec.eq_of_toNat_eq (by
  rw [field_toNat, wordH16_toNat]; omega)
@[simp] theorem wordH16_srs : field (wordH16 t s c) 12 14 = s := BitVec.eq_of_toNat_eq (by
  rw [field_toNat, wordH16_toNat]; omega)
@[simp] theorem wordH16_scm : field (wordH16 t s c) 15 15 = c := BitVec.eq_of_toNat_eq (by
  rw [field_toNat, wordH16_toNat]; omega)

@[simp] theorem wordC16_scmt : field (wordC16 m t s c) 0 0 = m := BitVec.eq_of_toNat_eq (by
  rw [field_toNat, wordC16_toNat]; omega)
@[simp] theorem wordC16_soh : field (wordC16 m t s c) 1 5 = sohAdd := BitVec.eq_of_toNat_eq (by
  rw [field_toNat, wordC16_toNat]; show _ = 1; omega)
@[simp] theorem wordC16_so : field (wordC16 m t s c) 6 8 = 0#3 := BitVec.eq_of_toNat_eq (by
  rw [field_toNat, wordC16_toNat]; show _ = 0; omega)
@[simp] theorem wordC16_srt : field (wordC16 m t s c) 9 11 = t := BitVec.eq_of_toNat_eq (by
  rw [field_toNat, wordC16_toNat]; omega)
@[simp] theorem wordC16_srs : field (wordC16 m t s c) 12 14 = s := BitVec.eq_of_toNat_eq (by
  rw [field_toNat, wordC16_toNat]; omega)
@[simp] theorem wordC16_scm : field (wordC16 m t s c) 15 15 = c := BitVec.eq_of_toNat_eq (by
  rw [field_toNat, wordC16_toNat]; omega)
end

section
variable (rt ra : RegNum) (si : BitVec 16) (p : PrefixPo) (si0 : BitVec 18)

@[simp] theorem wordS32_po : field (wordS32 rt ra si) 0 5 = poAddi := BitVec.eq_of_toNat_eq (by
  rw [field_toNat, wordS32_toNat]; show _ = 14; omega)
@[simp] theorem wordS32_rt : field (wordS32 rt ra si) 6 10 = rt := BitVec.eq_of_toNat_eq (by
  rw [field_toNat, wordS32_toNat]; omega)
@[simp] theorem wordS32_ra : field (wordS32 rt ra si) 11 15 = ra := BitVec.eq_of_toNat_eq (by
  rw [field_toNat, wordS32_toNat]; omega)
@[simp] theorem wordS32_si : field (wordS32 rt ra si) 16 31 = si := BitVec.eq_of_toNat_eq (by
  rw [field_toNat, wordS32_toNat]; omega)

@[simp] theorem wordP64_po : field (wordP64 p si0) 0 5 = p.value := BitVec.eq_of_toNat_eq (by
  rw [field_toNat, wordP64_toNat]; omega)
@[simp] theorem wordP64_type : field (wordP64 p si0) 6 7 = 2#2 := BitVec.eq_of_toNat_eq (by
  rw [field_toNat, wordP64_toNat]; show _ = 2; omega)
@[simp] theorem wordP64_sub : field (wordP64 p si0) 8 8 = 0#1 := BitVec.eq_of_toNat_eq (by
  rw [field_toNat, wordP64_toNat]; show _ = 0; omega)
@[simp] theorem wordP64_r : field (wordP64 p si0) 11 11 = 0#1 := BitVec.eq_of_toNat_eq (by
  rw [field_toNat, wordP64_toNat]; show _ = 0; omega)
@[simp] theorem wordP64_si0 : field (wordP64 p si0) 14 31 = si0 := BitVec.eq_of_toNat_eq (by
  rw [field_toNat, wordP64_toNat]; omega)
@[simp] theorem wordP64_isPaddiPrefix : isPaddiPrefix (wordP64 p si0) = true := by
  have h₁ := wordP64_type p si0
  have h₂ := wordP64_sub p si0
  have h₃ := wordP64_r p si0
  simp [isPaddiPrefix, h₁, h₂, h₃]
end

section
variable (high : BitVec 15) (xo : BitVec 10) (low : BitVec 17)

@[simp] theorem wordX48_po : field (wordX48 high xo low) 0 5 = poX48 := BitVec.eq_of_toNat_eq (by
  rw [field_toNat, wordX48_toNat]; show _ = 0; omega)
@[simp] theorem wordX48_high : field (wordX48 high xo low) 6 20 = high := BitVec.eq_of_toNat_eq (by
  rw [field_toNat, wordX48_toNat]; omega)
@[simp] theorem wordX48_xo : field (wordX48 high xo low) 21 30 = xo := BitVec.eq_of_toNat_eq (by
  rw [field_toNat, wordX48_toNat]; omega)
@[simp] theorem wordX48_low : field (wordX48 high xo low) 31 47 = low := BitVec.eq_of_toNat_eq (by
  rw [field_toNat, wordX48_toNat]; omega)
end

/-! ## A word is made of its fields -/

theorem wordH16_of_fields (h : Parcel) (hpo : field h 0 5 = poH16) (hso : field h 6 8 = 0#3) :
    wordH16 (field h 9 11) (field h 12 14) (field h 15 15) = h := by
  have h₁ := congrArg BitVec.toNat hpo
  have h₂ := congrArg BitVec.toNat hso
  rw [field_toNat] at h₁ h₂
  change _ = 5 at h₁
  change _ = 0 at h₂
  refine BitVec.eq_of_toNat_eq ?_
  rw [wordH16_toNat, field_toNat, field_toNat, field_toNat]
  omega

theorem wordC16_of_fields (h : Parcel) (hsoh : field h 1 5 = sohAdd) (hso : field h 6 8 = 0#3) :
    wordC16 (field h 0 0) (field h 9 11) (field h 12 14) (field h 15 15) = h := by
  have h₁ := congrArg BitVec.toNat hsoh
  have h₂ := congrArg BitVec.toNat hso
  rw [field_toNat] at h₁ h₂
  change _ = 1 at h₁
  change _ = 0 at h₂
  refine BitVec.eq_of_toNat_eq ?_
  rw [wordC16_toNat, field_toNat, field_toNat, field_toNat, field_toNat]
  omega

theorem wordS32_of_fields (w : BitVec 32) (hpo : field w 0 5 = poAddi) :
    wordS32 (field w 6 10) (field w 11 15) (field w 16 31) = w := by
  have h₁ := congrArg BitVec.toNat hpo
  rw [field_toNat] at h₁
  change _ = 14 at h₁
  refine BitVec.eq_of_toNat_eq ?_
  rw [wordS32_toNat, field_toNat, field_toNat, field_toNat]
  omega

theorem wordX48_of_fields (v : BitVec 48) (hpo : field v 0 5 = poX48) :
    wordX48 (field v 6 20) (field v 21 30) (field v 31 47) = v := by
  have h₁ := congrArg BitVec.toNat hpo
  rw [field_toNat] at h₁
  change _ = 0 at h₁
  refine BitVec.eq_of_toNat_eq ?_
  rw [wordX48_toNat, field_toNat, field_toNat, field_toNat]
  omega

/-! ## Parcels joined -/

theorem word_toNat (a b : Parcel) : (a ++ b : BitVec 32).toNat = a.toNat * 2 ^ 16 + b.toNat := toNat_cat a b

/-- The primary opcode lies in the first parcel. -/
theorem field_po_append (a b : Parcel) : field (a ++ b : BitVec 32) 0 5 = field a 0 5 := BitVec.eq_of_toNat_eq (by
  rw [field_toNat, field_toNat, word_toNat]; omega)

/-- Fields of the first parcel of a word. -/
theorem field_high_append (a b : Parcel) {i j : Nat} (hj : j < 16) :
    field (a ++ b : BitVec 32) i j = field a i j := BitVec.eq_of_toNat_eq (by
  have e : 2 ^ (32 - 1 - j) = 2 ^ 16 * 2 ^ (16 - 1 - j) := by rw [← Nat.pow_add]; congr 1; omega
  have d : (a.toNat * 2 ^ 16 + b.toNat) / 2 ^ 16 = a.toNat := by omega
  rw [field_toNat, field_toNat, word_toNat]
  show _ / 2 ^ (32 - 1 - j) % _ = _
  rw [e, ← Nat.div_div_eq_div_mul, d])

/-! ## Bytes of a value -/

@[simp] theorem length_bytesOf (n : Nat) (v : BitVec (8 * n)) : (bytesOf n v).length = n := by
  simp [bytesOf]

theorem getElem?_bytesOf {n : Nat} (v : BitVec (8 * n)) {k : Nat} (hk : k < n) :
    (bytesOf n v)[k]? = some (v.extractLsb' (8 * (n - 1 - k)) 8) := by
  simp [bytesOf, hk]

/-- What a stream that holds a value's bytes gives as a parcel (spec/20_memory.md R47). -/
theorem fetchParcel_of_bytes {fetch : Nat → Except Reject Byte} {a n : Nat} (v : BitVec (8 * n))
    (h : ∀ k b, (bytesOf n v)[k]? = some b → fetch (a + k) = .ok b) {j : Nat} (hj : j + 1 < n) :
    fetchParcel fetch (a + j) = .ok (v.extractLsb' (8 * (n - 2 - j)) 16) := by
  have h₀ := h j _ (getElem?_bytesOf v (by omega))
  have h₁ := h (j + 1) _ (getElem?_bytesOf v hj)
  have e : 8 * (n - 1 - j) = 8 * (n - 1 - (j + 1)) + 8 := by omega
  have f : n - 2 - j = n - 1 - (j + 1) := by omega
  have g := BitVec.extractLsb'_append_extractLsb'_eq_extractLsb' (x := v) (len₂ := 8) e
  rw [f]
  simp only [fetchParcel, h₀, Nat.add_assoc a j 1, h₁]
  exact congrArg Except.ok g

end Sys2Proof
end

