-- ==== Sys2Proof/Laws/Decode.lean ====
section
/-! SUPPORT. What each decoder can answer, said once: the inversion lemmas of fetch and decode. Callers cite these and do
not unfold the decoders. -/

namespace Sys2Proof

variable {p : PrefixPo} {cross : Bool} {fetch : Nat → Except Reject Byte} {pc : Word} {i : Instr} {n : Nat}

theorem fetchParcel_ok {a : Nat} {h : Parcel} :
    fetchParcel fetch a = .ok h ↔ ∃ hi lo, fetch a = .ok hi ∧ fetch (a + 1) = .ok lo ∧ h = hi ++ lo := by
  unfold fetchParcel
  cases h₀ : fetch a with
  | error r => simp [bind, Except.bind]
  | ok hi =>
    cases h₁ : fetch (a + 1) with
    | error r => simp [bind, Except.bind]
    | ok lo => simp [bind, Except.bind, eq_comm]

theorem fetchParcel_error {a : Nat} {r : Reject} :
    fetchParcel fetch a = .error r ↔
      fetch a = .error r ∨ (∃ hi, fetch a = .ok hi) ∧ fetch (a + 1) = .error r := by
  unfold fetchParcel
  cases h₀ : fetch a with
  | error r => simp [bind, Except.bind]
  | ok hi =>
    cases h₁ : fetch (a + 1) with
    | error r => simp [bind, Except.bind]
    | ok lo => simp [bind, Except.bind]

/-- `decodeH16` with SO = 0 (spec/30_encoding.md R64, R66). -/
theorem decodeH16_ok {h : Parcel} (hd : decodeH16 pc h = .ok (i, n)) :
    field h 6 8 = 0#3 ∧ n = 2 ∧
      ((field h 15 15 = 0#1 ∧ i = .hAdd (field h 9 11) (field h 12 14)) ∨
       (field h 15 15 = 1#1 ∧ i = .hsAdd (field h 9 11) (field h 12 14))) := by
  unfold decodeH16 at hd
  split at hd
  · cases hd
  · next hso =>
    refine ⟨Decidable.not_not.mp hso, ?_⟩
    split at hd
    · next hc => cases hd; exact ⟨rfl, .inl ⟨hc, rfl⟩⟩
    · next hc => cases hd; exact ⟨rfl, .inr ⟨(BitVec.eq_zero_or_eq_one _).resolve_left hc, rfl⟩⟩

/-- What the Compressed-mode decoder gives (R74). -/
theorem decodeCompressed_ok {h : Parcel} (hd : decodeCompressed pc h = .ok (i, n)) :
    field h 1 5 = sohAdd ∧ field h 6 8 = 0#3 ∧ n = 2 ∧
      ((field h 0 0 = 0#1 ∧ field h 15 15 = 0#1 ∧ i = .cAdd (field h 9 11) (field h 12 14)) ∨
       (field h 0 0 = 0#1 ∧ field h 15 15 = 1#1 ∧ i = .csAdd (field h 9 11) (field h 12 14)) ∨
       (field h 0 0 = 1#1 ∧ field h 15 15 = 1#1 ∧ i = .cstAdd (field h 9 11) (field h 12 14))) := by
  unfold decodeCompressed at hd
  split at hd
  · cases hd
  · next hf =>
    obtain ⟨h₁, h₂⟩ := not_or.mp hf
    refine ⟨Decidable.not_not.mp h₁, Decidable.not_not.mp h₂, ?_⟩
    split at hd
    · next hc => cases hd; exact ⟨rfl, .inl ⟨hc.1, hc.2, rfl⟩⟩
    · split at hd
      · next hc => cases hd; exact ⟨rfl, .inr (.inl ⟨hc.1, hc.2, rfl⟩)⟩
      · split at hd
        · next hc => cases hd; exact ⟨rfl, .inr (.inr ⟨hc.1, hc.2, rfl⟩)⟩
        · cases hd

/-- What the Compressed-mode decoder rejects (R75). -/
theorem decodeCompressed_error {h : Parcel} {r : Reject} (hd : decodeCompressed pc h = .error r) :
    r = .illegalEncoding pc h ∧
      (field h 1 5 ≠ sohAdd ∨ field h 6 8 ≠ 0#3 ∨ (field h 0 0 = 1#1 ∧ field h 15 15 = 0#1)) := by
  unfold decodeCompressed at hd
  split at hd
  · next hf => cases hd; exact ⟨rfl, hf.imp_right .inl⟩
  · split at hd
    · cases hd
    · next h₁ =>
      split at hd
      · cases hd
      · next h₂ =>
        split at hd
        · cases hd
        · next h₃ =>
          cases hd
          refine ⟨rfl, .inr (.inr ?_)⟩
          rcases BitVec.eq_zero_or_eq_one (field h 0 0) with a | a <;>
            rcases BitVec.eq_zero_or_eq_one (field h 15 15) with b | b
          · exact absurd ⟨a, b⟩ h₁
          · exact absurd ⟨a, b⟩ h₂
          · exact ⟨a, b⟩
          · exact absurd ⟨a, b⟩ h₃

/-- The suffix of a `paddi` (R63, R66). -/
theorem decodeSuffix_ok {w : BitVec 32} (hd : decodeSuffix fetch pc w = .ok (i, n)) :
    ∃ c d, fetchParcel fetch (pc.toNat + 4) = .ok c ∧ fetchParcel fetch (pc.toNat + 6) = .ok d ∧
      field (c ++ d : BitVec 32) 0 5 = poAddi ∧ n = 8 ∧
      i = .paddi (field (c ++ d : BitVec 32) 6 10) (field (c ++ d : BitVec 32) 11 15) (field w 14 31)
        (field (c ++ d : BitVec 32) 16 31) := by
  unfold decodeSuffix at hd
  cases hc : fetchParcel fetch (pc.toNat + 4) with
  | error r => rw [hc] at hd; cases hd
  | ok c =>
    cases hs : fetchParcel fetch (pc.toNat + 6) with
    | error r => rw [hc, hs] at hd; cases hd
    | ok d =>
      rw [hc, hs] at hd
      simp only [bind, Except.bind] at hd
      split at hd
      · cases hd
      · next hf => cases hd; exact ⟨c, d, rfl, rfl, Decidable.not_not.mp hf, rfl, rfl⟩

/-- What the branches after PO = 5 and PO = 0 give, under either `PREFIX_PO` (R66, R69). -/
theorem decodeWord_ok {w : BitVec 32} (hd : decodeWord p cross fetch pc w = .ok (i, n)) :
    (field w 0 5 = p.value ∧ crosses64B cross pc = false ∧ isPaddiPrefix w = true ∧
      decodeSuffix fetch pc w = .ok (i, n)) ∨
    (field w 0 5 = poAddi ∧ (p = .fourteen → isPaddiPrefix w = false) ∧ (i, n) = decodeS32 w) := by
  cases p with
  | one =>
    simp only [decodeWord, decodeWord1] at hd
    split at hd
    · next h₁ =>
      split at hd
      · cases hd
      · next h₂ =>
        split at hd
        · next h₃ => exact .inl ⟨h₁, by simpa using h₂, h₃, hd⟩
        · cases hd
    · split at hd
      · next h₁ => exact .inr ⟨h₁, nofun, (Except.ok.inj hd).symm⟩
      · cases hd
  | fourteen =>
    simp only [decodeWord, decodeWord14] at hd
    split at hd
    · next h₁ =>
      split at hd
      · next h₂ =>
        split at hd
        · cases hd
        · next h₃ => exact .inl ⟨h₁, by simpa using h₃, h₂, hd⟩
      · next h₂ => exact .inr ⟨h₁, fun _ => by simpa using h₂, (Except.ok.inj hd).symm⟩
    · cases hd

/-- The 48-bit class (R65, R66). -/
theorem decodeX48_ok {w : BitVec 32} (hd : decodeX48 fetch pc w = .ok (i, n)) :
    field w 21 30 ≠ reservedXo ∧ ∃ c : Parcel, fetchParcel fetch (pc.toNat + 4) = .ok c ∧ n = 6 ∧
      i = .xPlaceholder (field (w ++ c : BitVec 48) 6 20) (field (w ++ c : BitVec 48) 21 30)
        (field (w ++ c : BitVec 48) 31 47) := by
  unfold decodeX48 at hd
  split at hd
  · cases hd
  · next hx =>
    cases hc : fetchParcel fetch (pc.toNat + 4) with
    | error r => rw [hc] at hd; cases hd
    | ok c => rw [hc] at hd; cases hd; exact ⟨hx, c, rfl, rfl, rfl⟩

/-- What the Standard-mode decoder gives, with the parcels it read and the conditions on them (R66, R69). -/
theorem decodeStandard_ok (hd : decodeStandard p cross fetch pc = .ok (i, n)) :
    ∃ a, fetchParcel fetch pc.toNat = .ok a ∧
      ((field a 0 5 = poH16 ∧ decodeH16 pc a = .ok (i, n)) ∨
       (field a 0 5 ≠ poH16 ∧ ∃ b, fetchParcel fetch (pc.toNat + 2) = .ok b ∧
         ((field (a ++ b : BitVec 32) 0 5 = poX48 ∧ decodeX48 fetch pc (a ++ b) = .ok (i, n)) ∨
          (field (a ++ b : BitVec 32) 0 5 ≠ poX48 ∧ field (a ++ b : BitVec 32) 0 5 = p.value ∧
            crosses64B cross pc = false ∧ isPaddiPrefix (a ++ b) = true ∧
            decodeSuffix fetch pc (a ++ b) = .ok (i, n)) ∨
          (field (a ++ b : BitVec 32) 0 5 = poAddi ∧ (p = .fourteen → isPaddiPrefix (a ++ b) = false) ∧
            (i, n) = decodeS32 (a ++ b))))) := by
  unfold decodeStandard at hd
  cases ha : fetchParcel fetch pc.toNat with
  | error r => rw [ha] at hd; cases hd
  | ok a =>
    rw [ha] at hd
    simp only [bind, Except.bind] at hd
    refine ⟨a, rfl, ?_⟩
    split at hd
    · next h₁ => exact .inl ⟨h₁, hd⟩
    · next h₁ =>
      cases hb : fetchParcel fetch (pc.toNat + 2) with
      | error r => rw [hb] at hd; cases hd
      | ok b =>
        rw [hb] at hd
        refine .inr ⟨h₁, b, rfl, ?_⟩
        simp only at hd
        split at hd
        · next h₂ => exact .inl ⟨h₂, hd⟩
        · next h₂ =>
          rcases decodeWord_ok hd with ⟨h₃, h₄, h₅, h₆⟩ | h₃
          · exact .inr (.inl ⟨h₂, h₃, h₄, h₅, h₆⟩)
          · exact .inr (.inr h₃)

/-- The Standard-mode decoder on a first parcel of the 16-bit class (R66). -/
theorem decodeStandard_po5 {a : Parcel} (ha : fetchParcel fetch pc.toNat = .ok a) (h : field a 0 5 = poH16) :
    decodeStandard p cross fetch pc = decodeH16 pc a := by
  unfold decodeStandard
  rw [ha]
  simp only [bind, Except.bind]
  rw [if_pos h]

/-- The Standard-mode decoder on a first word of any other class (R66, R69). -/
theorem decodeStandard_word {a b : Parcel} (ha : fetchParcel fetch pc.toNat = .ok a)
    (hb : fetchParcel fetch (pc.toNat + 2) = .ok b) (h : field a 0 5 ≠ poH16) :
    decodeStandard p cross fetch pc =
      if field a 0 5 = poX48 then decodeX48 fetch pc (a ++ b)
      else decodeWord p cross fetch pc (a ++ b) := by
  unfold decodeStandard
  rw [ha, hb]
  simp only [bind, Except.bind]
  rw [if_neg h, field_po_append]

/-- What `decodeSuffix` rejects (R66). -/
theorem decodeSuffix_error {w : BitVec 32} {r : Reject} (hd : decodeSuffix fetch pc w = .error r) :
    fetchParcel fetch (pc.toNat + 4) = .error r ∨
    ∃ c, fetchParcel fetch (pc.toNat + 4) = .ok c ∧
      (fetchParcel fetch (pc.toNat + 6) = .error r ∨
       ∃ d, fetchParcel fetch (pc.toNat + 6) = .ok d ∧ field c 0 5 ≠ poAddi ∧
         r = .outOfScope pc (.pair (w ++ (c ++ d : BitVec 32)))) := by
  unfold decodeSuffix at hd
  cases hc : fetchParcel fetch (pc.toNat + 4) with
  | error q => rw [hc] at hd; cases hd; exact .inl rfl
  | ok c =>
    refine .inr ⟨c, rfl, ?_⟩
    cases hs : fetchParcel fetch (pc.toNat + 6) with
    | error q => rw [hc, hs] at hd; cases hd; exact .inl rfl
    | ok d =>
      rw [hc, hs] at hd
      simp only [bind, Except.bind] at hd
      split at hd
      · next hf => cases hd; exact .inr ⟨d, rfl, by rwa [field_po_append] at hf, rfl⟩
      · cases hd

/-- What the branches after PO = 5 and PO = 0 reject, under either `PREFIX_PO` (R66, R69). -/
theorem decodeWord_error {w : BitVec 32} {r : Reject}
    (hd : decodeWord p cross fetch pc w = .error r) :
    (field w 0 5 = p.value ∧ crosses64B cross pc = true ∧ (p = .fourteen → isPaddiPrefix w = true) ∧
      r = .prefixCrosses64B pc) ∨
    (field w 0 5 = p.value ∧ crosses64B cross pc = false ∧ p = .one ∧ isPaddiPrefix w = false ∧
      r = .outOfScope pc (.word w)) ∨
    (field w 0 5 = p.value ∧ crosses64B cross pc = false ∧ isPaddiPrefix w = true ∧
      decodeSuffix fetch pc w = .error r) ∨
    (field w 0 5 ≠ p.value ∧ field w 0 5 ≠ poAddi ∧ r = .outOfScope pc (.word w)) := by
  cases p with
  | one =>
    simp only [decodeWord, decodeWord1] at hd
    split at hd
    · next h₁ =>
      split at hd
      · next h₂ => exact .inl ⟨h₁, h₂, nofun, (Except.error.inj hd).symm⟩
      · next h₂ =>
        have h₂ : crosses64B cross pc = false := by simpa using h₂
        split at hd
        · next h₃ => exact .inr (.inr (.inl ⟨h₁, h₂, h₃, hd⟩))
        · next h₃ => exact .inr (.inl ⟨h₁, h₂, rfl, by simpa using h₃, (Except.error.inj hd).symm⟩)
    · next h₁ =>
      split at hd
      · cases hd
      · next h₂ => exact .inr (.inr (.inr ⟨h₁, h₂, (Except.error.inj hd).symm⟩))
  | fourteen =>
    simp only [decodeWord, decodeWord14] at hd
    split at hd
    · next h₁ =>
      split at hd
      · next h₂ =>
        split at hd
        · next h₃ => exact .inl ⟨h₁, h₃, fun _ => h₂, (Except.error.inj hd).symm⟩
        · next h₃ => exact .inr (.inr (.inl ⟨h₁, by simpa using h₃, h₂, hd⟩))
      · cases hd
    · next h₁ => exact .inr (.inr (.inr ⟨h₁, h₁, (Except.error.inj hd).symm⟩))

/-- What the Standard-mode decoder rejects, and why (R66, R69). -/
theorem decodeStandard_error {r : Reject} (hd : decodeStandard p cross fetch pc = .error r) :
    fetchParcel fetch pc.toNat = .error r ∨
    ∃ a, fetchParcel fetch pc.toNat = .ok a ∧
      ((field a 0 5 = poH16 ∧ field a 6 8 ≠ 0#3 ∧ r = .illegalEncoding pc a) ∨
       (field a 0 5 ≠ poH16 ∧
        (fetchParcel fetch (pc.toNat + 2) = .error r ∨
         ∃ b, fetchParcel fetch (pc.toNat + 2) = .ok b ∧
          ((field a 0 5 = poX48 ∧ field (a ++ b : BitVec 32) 21 30 = reservedXo ∧
              r = .outOfScope pc (.word (a ++ b))) ∨
           (field a 0 5 = poX48 ∧ field (a ++ b : BitVec 32) 21 30 ≠ reservedXo ∧
              fetchParcel fetch (pc.toNat + 4) = .error r) ∨
           (field a 0 5 ≠ poX48 ∧ decodeWord p cross fetch pc (a ++ b) = .error r))))) := by
  cases ha : fetchParcel fetch pc.toNat with
  | error q =>
    unfold decodeStandard at hd
    rw [ha] at hd
    cases hd
    exact .inl rfl
  | ok a =>
    refine .inr ⟨a, rfl, ?_⟩
    by_cases h₁ : field a 0 5 = poH16
    · rw [decodeStandard_po5 ha h₁, decodeH16] at hd
      split at hd
      · next h₂ => exact .inl ⟨h₁, h₂, (Except.error.inj hd).symm⟩
      · split at hd <;> cases hd
    · refine .inr ⟨h₁, ?_⟩
      cases hb : fetchParcel fetch (pc.toNat + 2) with
      | error q =>
        unfold decodeStandard at hd
        rw [ha, hb] at hd
        simp only [bind, Except.bind] at hd
        rw [if_neg h₁] at hd
        cases hd
        exact .inl rfl
      | ok b =>
        refine .inr ⟨b, rfl, ?_⟩
        rw [decodeStandard_word ha hb h₁] at hd
        split at hd
        · next h₂ =>
          rw [decodeX48] at hd
          split at hd
          · next h₃ => exact .inl ⟨h₂, h₃, (Except.error.inj hd).symm⟩
          · next h₃ =>
            cases hc : fetchParcel fetch (pc.toNat + 4) with
            | error q => rw [hc] at hd; cases hd; exact .inr (.inl ⟨h₂, h₃, rfl⟩)
            | ok c => rw [hc] at hd; cases hd
        · next h₂ => exact .inr (.inr ⟨h₂, hd⟩)

/-- Decode in a given mode gives the width and the mode of the form, for every form but what it rejects (R24, R27). -/
theorem decodeAt_width {m : Mode} (hd : decodeAt p cross m fetch pc = .ok (i, n)) : n = i.width ∧ i.mode = m := by
  cases m with
  | standard =>
    obtain ⟨a, -, ⟨-, h⟩ | ⟨-, b, -, ⟨-, h⟩ | ⟨-, -, -, -, h⟩ | ⟨-, -, h⟩⟩⟩ := decodeStandard_ok hd
    · obtain ⟨-, rfl, ⟨-, rfl⟩ | ⟨-, rfl⟩⟩ := decodeH16_ok h <;> exact ⟨rfl, rfl⟩
    · obtain ⟨-, c, -, rfl, rfl⟩ := decodeX48_ok h
      exact ⟨rfl, rfl⟩
    · obtain ⟨c, d, -, -, -, rfl, rfl⟩ := decodeSuffix_ok h
      exact ⟨rfl, rfl⟩
    · cases h
      exact ⟨rfl, rfl⟩
  | compressed =>
    simp only [decodeAt] at hd
    cases ha : fetchParcel fetch pc.toNat with
    | error r => rw [ha] at hd; cases hd
    | ok h =>
      rw [ha] at hd
      obtain ⟨-, -, rfl, ⟨-, -, rfl⟩ | ⟨-, -, rfl⟩ | ⟨-, -, rfl⟩⟩ := decodeCompressed_ok hd <;> exact ⟨rfl, rfl⟩

end Sys2Proof
end

