-- ==== Sys2Proof/Laws/Memory.lean ====
section
/-! SUPPORT. The laws of the image's cells: read after write, the canonical form kept by every memory operation, and what
an image in one piece reads as. -/

namespace Sys2Proof.Machine

theorem Memory.read_write_same (m : Memory) (a : Nat) (v : Byte) : (m.write a v).read a = some v := by
  induction m with
  | nil => simp [Memory.write, Memory.read]
  | cons c m ih =>
    obtain ⟨k, b⟩ := c
    by_cases h₁ : a < k
    · simp [Memory.write, Memory.read, h₁]
    · by_cases h₂ : a = k
      · simp [Memory.write, Memory.read, h₂]
      · simp [Memory.write, Memory.read, h₁, h₂, Ne.symm h₂, ih]

theorem Memory.read_write_other (m : Memory) {a q : Nat} (v : Byte) (h : q ≠ a) :
    (m.write a v).read q = m.read q := by
  induction m with
  | nil => simp [Memory.write, Memory.read, Ne.symm h]
  | cons c m ih =>
    obtain ⟨k, b⟩ := c
    by_cases h₁ : a < k
    · simp [Memory.write, Memory.read, h₁, Ne.symm h]
    · by_cases h₂ : a = k
      · subst h₂
        simp [Memory.write, Memory.read, Ne.symm h]
      · simp [Memory.write, Memory.read, h₁, h₂, ih]

theorem Memory.mem_write {m : Memory} {a : Nat} {v : Byte} {c : Host.Cell} (h : c ∈ m.write a v) :
    c = (a, v) ∨ c ∈ m := by
  induction m with
  | nil => exact .inl (by simpa [Memory.write] using h)
  | cons d m ih =>
    obtain ⟨k, b⟩ := d
    simp only [Memory.write] at h
    split at h
    · simpa using h
    · split at h
      · rcases List.mem_cons.mp h with h | h
        · exact .inl h
        · exact .inr (List.mem_cons_of_mem _ h)
      · rcases List.mem_cons.mp h with h | h
        · exact .inr (h ▸ List.mem_cons_self)
        · exact (ih h).imp_right (List.mem_cons_of_mem _)

/-- A write keeps the canonical form. -/
theorem Memory.wf_write {m : Memory} (hm : m.wf) (a : Nat) (v : Byte) : (m.write a v).wf := by
  induction m with
  | nil => simp [Memory.wf, Memory.write]
  | cons c m ih =>
    obtain ⟨k, b⟩ := c
    obtain ⟨hk, ht⟩ := List.pairwise_cons.mp hm
    simp only [Memory.write]
    split
    · next h =>
      refine List.pairwise_cons.mpr ⟨fun d hd => ?_, hm⟩
      rcases List.mem_cons.mp hd with rfl | hd
      · exact h
      · exact Nat.lt_trans h (hk d hd)
    · split
      · next h => exact List.pairwise_cons.mpr ⟨fun d hd => h ▸ hk d hd, ht⟩
      · next h₁ h₂ =>
        refine List.pairwise_cons.mpr ⟨fun d hd => ?_, ih ht⟩
        rcases Memory.mem_write hd with rfl | hd
        · show k < a
          omega
        · exact hk d hd

@[simp] theorem Memory.length_ofImage (base : Nat) (bs : List Byte) : (Memory.ofImage base bs).length = bs.length := by
  induction bs generalizing base with
  | nil => rfl
  | cons b bs ih => simp [Memory.ofImage, ih]

@[simp] theorem Memory.contiguousFrom_ofImage (base : Nat) (bs : List Byte) :
    (Memory.ofImage base bs).contiguousFrom base = true := by
  induction bs generalizing base with
  | nil => rfl
  | cons b bs ih => simp [Memory.ofImage, Memory.contiguousFrom, ih]

/-- An image in one piece has the canonical form, and every cell at or after its base. -/
theorem Memory.wf_of_contiguous {m : Memory} {base : Nat} (h : m.contiguousFrom base = true) :
    m.wf ∧ ∀ c ∈ m, base ≤ c.1 := by
  induction m generalizing base with
  | nil => simp [Memory.wf]
  | cons c m ih =>
    obtain ⟨k, b⟩ := c
    obtain ⟨hk, ht⟩ : k = base ∧ Memory.contiguousFrom (base + 1) m = true := by
      simpa [Memory.contiguousFrom] using h
    obtain ⟨hw, hb⟩ := ih ht
    refine ⟨List.pairwise_cons.mpr ⟨fun d hd => ?_, hw⟩, fun d hd => ?_⟩
    · have := hb d hd
      show k < d.1
      omega
    · rcases List.mem_cons.mp hd with rfl | hd
      · show base ≤ k
        omega
      · have := hb d hd
        omega

/-- Building an image gives the canonical form. -/
theorem Memory.wf_ofImage (base : Nat) (bs : List Byte) : (Memory.ofImage base bs).wf :=
  (Memory.wf_of_contiguous (Memory.contiguousFrom_ofImage base bs)).1

/-- What an image in one piece reads as: the cell at the distance from the base, and nothing below the base. -/
theorem Memory.read_of_contiguous {m : Memory} {base : Nat} (h : m.contiguousFrom base = true) (a : Nat) :
    m.read a = if a < base then none else (m[a - base]?).map Prod.snd := by
  induction m generalizing base with
  | nil => simp [Memory.read]
  | cons c m ih =>
    obtain ⟨k, b⟩ := c
    obtain ⟨hk, ht⟩ : k = base ∧ Memory.contiguousFrom (base + 1) m = true := by
      simpa [Memory.contiguousFrom] using h
    subst hk
    simp only [Memory.read, ih ht]
    by_cases h₁ : k = a
    · simp [h₁]
    · by_cases h₂ : a < k
      · simp [h₁, h₂, Nat.lt_succ_of_lt h₂]
      · have h₃ : ¬ a < k + 1 := by omega
        obtain ⟨d, hd⟩ : ∃ d, a - k = d + 1 := ⟨a - k - 1, by omega⟩
        have h₄ : a - (k + 1) = d := by omega
        simp [h₁, h₂, h₃, hd, h₄]

theorem Memory.getElem_ofImage (base : Nat) (bs : List Byte) (k : Nat) :
    ((Memory.ofImage base bs)[k]?).map Prod.snd = bs[k]? := by
  induction bs generalizing base k with
  | nil => simp [Memory.ofImage]
  | cons b bs ih => cases k <;> simp [Memory.ofImage, ih]

/-- What `IMAGE` at `IMAGE_BASE` reads as (spec/20_memory.md R41). -/
theorem Memory.read_ofImage (base : Nat) (bs : List Byte) (a : Nat) :
    (Memory.ofImage base bs).read a = if a < base then none else bs[a - base]? := by
  rw [Memory.read_of_contiguous (Memory.contiguousFrom_ofImage base bs), Memory.getElem_ofImage]

/-- Placing bytes in the image keeps the canonical form. -/
theorem State.wf_placeBytes {s : State} (hs : s.mem.wf) (a : Nat) (bs : List Byte) : (s.placeBytes a bs).mem.wf := by
  induction bs generalizing s a with
  | nil => exact hs
  | cons b bs ih => exact ih (s := { s with mem := _ }) (Memory.wf_write hs _ _) _

theorem State.enterModeOf_mem (s : State) (nbits w : Nat) : (s.enterModeOf nbits w).mem = s.mem := by
  unfold State.enterModeOf
  split <;> rfl

/-- Placing a table word keeps the canonical form. -/
theorem State.wf_placeTableWord {s : State} (hs : s.mem.wf) (nbits w : Nat) : (s.placeTableWord nbits w).mem.wf := by
  have h : ((s.placeBytes s.pc.toNat (tableBytes nbits w)).enterModeOf nbits w).mem.wf := by
    rw [State.enterModeOf_mem]
    exact State.wf_placeBytes hs _ _
  unfold State.placeTableWord
  split <;> exact h

theorem State.reset_mem_wf : State.reset.mem.wf := by decide

end Sys2Proof.Machine
end

