-- ==== Sys2Proof/Laws/PerInstr.lean ====
section
/-! SUPPORT. Statements for every instruction, one lemma per constructor of `Instr`. -/

namespace Sys2Proof.Laws.EncodedLength

/-- The encoder writes as many bytes as the form is wide, under either `PREFIX_PO` (spec/30_encoding.md R60, R82). -/
def Statement (i : Instr) : Prop := ∀ p, (encode p i).length = i.width

theorem addi (rt ra : RegNum) (si : BitVec 16) : Statement (.addi rt ra si) := fun _ => by
  simp [encode, bytesOf, Instr.width]

theorem paddi (rt ra : RegNum) (si0 : BitVec 18) (si1 : BitVec 16) : Statement (.paddi rt ra si0 si1) := fun _ => by
  simp [encode, bytesOf, Instr.width]

theorem hAdd (srt srs : SmallCode) : Statement (.hAdd srt srs) := fun _ => by
  simp [encode, bytesOf, Instr.width]

theorem hsAdd (srt srs : SmallCode) : Statement (.hsAdd srt srs) := fun _ => by
  simp [encode, bytesOf, Instr.width]

theorem xPlaceholder (high : BitVec 15) (xo : BitVec 10) (low : BitVec 17) :
    Statement (.xPlaceholder high xo low) := fun _ => by
  simp [encode, bytesOf, Instr.width]

theorem cAdd (srt srs : SmallCode) : Statement (.cAdd srt srs) := fun _ => by
  simp [encode, bytesOf, Instr.width]

theorem csAdd (srt srs : SmallCode) : Statement (.csAdd srt srs) := fun _ => by
  simp [encode, bytesOf, Instr.width]

theorem cstAdd (srt srs : SmallCode) : Statement (.cstAdd srt srs) := fun _ => by
  simp [encode, bytesOf, Instr.width]

end Sys2Proof.Laws.EncodedLength
end

