-- ==== Sys2Proof/Laws/State.lean ====
section
/-! SUPPORT. One lemma per field per update of the state, and what a register read gives after a register write. -/

namespace Sys2Proof.Machine

variable (s : State) (r q : RegNum) (v : Word) (i : Instr)

@[simp] theorem State.setReg_pc : (s.setReg r v).pc = s.pc := rfl
@[simp] theorem State.setReg_mode : (s.setReg r v).mode = s.mode := rfl
@[simp] theorem State.setReg_swapBack : (s.setReg r v).swapBack = s.swapBack := rfl
@[simp] theorem State.setReg_mem : (s.setReg r v).mem = s.mem := rfl
@[simp] theorem State.setReg_run : (s.setReg r v).run = s.run := rfl
@[simp] theorem State.setReg_x : (s.setReg r v).x = s.x.set r.toNat v r.isLt := rfl

@[simp] theorem State.complete_x : (s.complete i).x = s.x := rfl
@[simp] theorem State.complete_pc : (s.complete i).pc = s.pc + BitVec.ofNat 64 i.width := rfl
@[simp] theorem State.complete_mode : (s.complete i).mode = (nextMode s.mode s.swapBack i).1 := rfl
@[simp] theorem State.complete_swapBack : (s.complete i).swapBack = (nextMode s.mode s.swapBack i).2 := rfl
@[simp] theorem State.complete_mem : (s.complete i).mem = s.mem := rfl
@[simp] theorem State.complete_run : (s.complete i).run = s.run := rfl
@[simp] theorem State.complete_reg : (s.complete i).reg r = s.reg r := rfl

@[simp] theorem State.addImm_eq (rt ra : RegNum) (imm : Word) :
    s.addImm rt ra imm = s.setReg rt (s.ra0 ra + imm) := rfl

@[simp] theorem State.addSmall_eq (srt srs : SmallCode) :
    s.addSmall srt srs = s.setReg (small srt) (s.reg (small srt) + s.reg (small srs)) := rfl

theorem State.reg_setReg_same : (s.setReg r v).reg r = v := by
  simp [State.reg]

theorem State.reg_setReg_other (h : q ≠ r) : (s.setReg r v).reg q = s.reg q := by
  have : r.toNat ≠ q.toNat := fun e => h (BitVec.eq_of_toNat_eq e.symm)
  simp [State.reg, this]

/-- Fetch reads the image and the byte order alone. -/
theorem State.fetchByte_congr {s t : State} (hm : t.mem = s.mem) (hr : t.run = s.run) (a : Nat) :
    t.fetchByte a = s.fetchByte a := by
  simp [State.fetchByte, hm, hr]

end Sys2Proof.Machine
end

