-- ==== Sys2Proof/Laws/Step.lean ====
section
/-! SUPPORT. What a meaning and a step can do, said once: `exec` answers a next state that is the form's register write
completed, or the refusal of `x.placeholder`; a step that answers a next state decoded an instruction and ran it. -/

namespace Sys2Proof.Machine

/-- The next state of every form that completes: one register written, then the form completed (spec/10_state.md R34). -/
theorem exec_next {i : Instr} {s t : State} (h : exec i s = .next t) :
    ∃ dest v, t = (s.setReg dest v).complete i ∧
      ((∃ rt ra si, i = .addi rt ra si ∧ dest = rt ∧ v = s.ra0 ra + sext64 si) ∨
       (∃ rt ra si0 si1, i = .paddi rt ra si0 si1 ∧ dest = rt ∧ v = s.ra0 ra + sext64 (imm34 si0 si1)) ∨
       (∃ srt srs, (i = .hAdd srt srs ∨ i = .hsAdd srt srs ∨ i = .cAdd srt srs ∨ i = .csAdd srt srs ∨
          i = .cstAdd srt srs) ∧ dest = small srt ∧ v = s.reg (small srt) + s.reg (small srs))) := by
  cases i with
  | addi rt ra si => cases h; exact ⟨rt, _, rfl, .inl ⟨rt, ra, si, rfl, rfl, rfl⟩⟩
  | paddi rt ra si0 si1 => cases h; exact ⟨rt, _, rfl, .inr (.inl ⟨rt, ra, si0, si1, rfl, rfl, rfl⟩)⟩
  | hAdd a b => cases h; exact ⟨small a, _, rfl, .inr (.inr ⟨a, b, by simp, rfl, rfl⟩)⟩
  | hsAdd a b => cases h; exact ⟨small a, _, rfl, .inr (.inr ⟨a, b, by simp, rfl, rfl⟩)⟩
  | xPlaceholder _ _ _ => cases h
  | cAdd a b => cases h; exact ⟨small a, _, rfl, .inr (.inr ⟨a, b, by simp, rfl, rfl⟩)⟩
  | csAdd a b => cases h; exact ⟨small a, _, rfl, .inr (.inr ⟨a, b, by simp, rfl, rfl⟩)⟩
  | cstAdd a b => cases h; exact ⟨small a, _, rfl, .inr (.inr ⟨a, b, by simp, rfl, rfl⟩)⟩

/-- What every form that completes does beside its register write. -/
theorem exec_completes {i : Instr} {s t : State} (h : exec i s = .next t) :
    t.pc = s.pc + BitVec.ofNat 64 i.width ∧ t.mode = (nextMode s.mode s.swapBack i).1 ∧
      t.swapBack = (nextMode s.mode s.swapBack i).2 ∧ t.mem = s.mem ∧ t.run = s.run ∧
      (i.width = 2 ∨ i.width = 4 ∨ i.width = 8) := by
  cases i <;> cases h <;> exact ⟨rfl, rfl, rfl, rfl, rfl, by simp [Instr.width]⟩

/-- A rejection is never a next state. -/
theorem stopOf_ne_next (r : Reject) (t : State) : stopOf r ≠ .next t := by
  cases r <;> exact nofun

/-- A step that answers a next state: the state is live, an instruction was decoded, and `exec` of it answered. -/
theorem step_next {s t : State} (h : step s = .next t) :
    s.Live ∧ ∃ i n, s.fetchInstr = .ok (i, n) ∧ n = i.width ∧ i.mode = s.mode ∧ exec i s = .next t := by
  unfold step at h
  split at h
  · cases h
  · next h₁ =>
    split at h
    · cases h
    · next h₂ =>
      split at h
      · next r hr => exact absurd h (stopOf_ne_next r t)
      · next i n hi =>
        obtain ⟨hn, hm⟩ := decodeAt_width hi
        exact ⟨⟨by simpa using h₁, by simpa using h₂⟩, i, n, hi, hn, hm, h⟩

/-- A live state steps as decode says. -/
theorem step_of_live {s : State} (h : s.Live) :
    step s = match s.fetchInstr with
      | .error r => stopOf r
      | .ok (i, _) => exec i s := by
  unfold step
  rw [h.1, h.2]
  rfl

/-- What a completed step leaves of the image and of the run's constants (spec/20_memory.md R42). -/
theorem step_next_frame {s t : State} (h : step s = .next t) : t.mem = s.mem ∧ t.run = s.run := by
  obtain ⟨-, i, n, -, -, -, he⟩ := step_next h
  obtain ⟨-, -, -, hm, hr, -⟩ := exec_completes he
  exact ⟨hm, hr⟩

end Sys2Proof.Machine
end

