-- ==== Sys2Proof/Tests/Slice0.lean ====
section
/-! SUPPORT. Tests: the ill-formed terms WellFormed refuses, words written out from the formats of spec/30_encoding.md,
single steps with the results of spec/95_test_vectors.md (vectors E1 to E8, VA, VP, VH, VX, VC, VM, VF), and for every
statement of the Obligations file that has hypotheses a concrete state and operands that meet them. -/

namespace Sys2Proof.Tests

open Sys2Proof Sys2Proof.Machine

/-! ## Helpers -/

/-- A machine launched on a stream: BE, `PREFIX_PO` = 1, the 64-byte check on, `IMAGE_BASE` = `ENTRY_PC` = 0x1000,
`END_PC` the end of the image (the defaults of spec/95). -/
def machine (stream : List Byte) : State :=
  { State.reset with
    mem := Memory.ofImage 0x1000 stream
    run := { RunConsts.reset with endPc := 0x1000#64 + BitVec.ofNat 64 stream.length } }

/-- The same in Compressed mode. -/
def compressed (stream : List Byte) : State := { machine stream with mode := .compressed }

/-- The same with the image, and so the pc, at another address. -/
def machineAt (base : Word) (stream : List Byte) : State :=
  { machine stream with
    pc := base
    mem := Memory.ofImage base.toNat stream
    run := { RunConsts.reset with
      imageBase := base, entryPc := base, endPc := base + BitVec.ofNat 64 stream.length } }

def nextOf : Host.Outcome State Fault Refusal → Option State
  | .next s => some s
  | .fault _ => none
  | .refused _ => none

def faultOf : Host.Outcome State Fault Refusal → Option Fault
  | .next _ => none
  | .fault f => some f
  | .refused _ => none

def refusalOf : Host.Outcome State Fault Refusal → Option Refusal
  | .next _ => none
  | .fault _ => none
  | .refused r => some r

theorem next_of_nextOf {o : Host.Outcome State Fault Refusal} (h : (nextOf o).isSome = true) : ∃ t, o = .next t := by
  cases o with
  | next t => exact ⟨t, rfl⟩
  | fault _ => cases h
  | refused _ => cases h

theorem fault_of_faultOf {o : Host.Outcome State Fault Refusal} {f : Fault} (h : faultOf o = some f) : o = .fault f := by
  cases o with
  | next _ => cases h
  | fault _ => cases h; rfl
  | refused _ => cases h

theorem refused_of_refusalOf {o : Host.Outcome State Fault Refusal} {r : Refusal} (h : refusalOf o = some r) :
    o = .refused r := by
  cases o with
  | next _ => cases h
  | fault _ => cases h
  | refused _ => cases h; rfl

/-- A stream holds given bytes, checked byte by byte. -/
theorem bytes_hold {fetch : Nat → Except Reject Byte} {a : Nat} {bytes : List Byte}
    (h : ∀ k, k < bytes.length → fetch (a + k) = .ok (bytes.getD k 0#8)) :
    ∀ k b, bytes[k]? = some b → fetch (a + k) = .ok b := by
  intro k b hb
  obtain ⟨hk, rfl⟩ := List.getElem?_eq_some_iff.mp hb
  rw [h k hk, List.getD_eq_getElem _ _ hk]

/-- What a step leaves in a register, the pc, the mode and swap_back. -/
def view (r : RegNum) (o : Host.Outcome State Fault Refusal) : Option (Word × Word × Mode × Bool) :=
  (nextOf o).map fun t => (t.reg r, t.pc, t.mode, t.swapBack)

/-! ## WellFormed -/

/-- R65: XO may be any value but 256. -/
theorem test_wellformed_xo_256_refused : Instr.wellFormed (.xPlaceholder 0 256 0) = false := by decide
theorem test_wellformed_xo_neighbours :
    Instr.wellFormed (.xPlaceholder 0 255 0) = true ∧ Instr.wellFormed (.xPlaceholder 0 257 0) = true := by decide
/-- R69: under 14 the words with RT in 16 to 19 and RA in 0 to 15 are prefixes (VA8). -/
theorem test_encodable_under_fourteen :
    Instr.encodable .fourteen (.addi 16 0 1) = false ∧ Instr.encodable .fourteen (.addi 19 15 0) = false ∧
    Instr.encodable .fourteen (.addi 15 0 1) = true ∧ Instr.encodable .fourteen (.addi 20 0 1) = true ∧
    Instr.encodable .fourteen (.addi 16 16 1) = true ∧ Instr.encodable .one (.addi 16 0 1) = true := by decide

/-! ## Words written out from the formats, most significant bit first -/

/-- R62: PO 14, RT 3, RA 3, SI 0x15 (E1). -/
theorem test_decode_addi : decodeTableWord 32 0b001110_00011_00011_0000000000010101 = some (.addi 3 3 0x15) := by decide
/-- R63: PO 1, 2, 0, //, R 0, //, si0 1; PO 14, RT 3, RA 3, si1 0x2345 (E2). -/
theorem test_decode_paddi :
    decodeTableWord 64 0b000001_10_0_00_0_00_000000000000000001_001110_00011_00011_0010001101000101 =
      some (.paddi 3 3 1 0x2345) := by decide
/-- R71: the same with every `//` bit set (VP6). -/
theorem test_decode_paddi_reserved_bits :
    decodeTableWord 64 0b000001_10_0_11_0_11_000000000000000001_001110_00011_00011_0010001101000101 =
      some (.paddi 3 3 1 0x2345) := by decide
/-- R64: PO 5, SO 0, SRT 4, SRS 3, SCM 0 (VH4). -/
theorem test_decode_h_add : decodeTableWord 16 0b000101_000_100_011_0 = some (.hAdd 4 3) := by decide
/-- R64 with SCM 1: SRT 7, SRS 0 (VH6). -/
theorem test_decode_hs_add : decodeTableWord 16 0b000101_000_111_000_1 = some (.hsAdd 7 0) := by decide
/-- R65: PO 0, placeholder, XO 0x1FF, placeholder (VX5). -/
theorem test_decode_x_placeholder :
    decodeTableWord 48 0b000000_000000000000000_0111111111_00000000000000000 = some (.xPlaceholder 0 0x1FF 0) := by decide
/-- R67: SCMT 0, SOH 1, SO 0, SRT 1, SRS 0, SCM 0 (VC5). -/
theorem test_decode_c_add : decodeTableWord 16 0b0_00001_000_001_000_0 = some (.cAdd 1 0) := by decide
/-- R67 with SCM 1: SRT 4, SRS 1 (VC6). -/
theorem test_decode_cs_add : decodeTableWord 16 0b0_00001_000_100_001_1 = some (.csAdd 4 1) := by decide
/-- R67 with SCMT 1 and SCM 1: SRT 3, SRS 2 (VC7). -/
theorem test_decode_cst_add : decodeTableWord 16 0b1_00001_000_011_010_1 = some (.cstAdd 3 2) := by decide
/-- R75: SCMT 1 with SCM 0, and SO 1, are no Compressed-mode instruction (VC8, VC10); R73: XO 256 is no placeholder (VX3). -/
theorem test_decode_rejects :
    decodeTableWord 16 0x8402 = none ∧ decodeTableWord 16 0x0480 = none ∧ decodeTableWord 32 0x00000200 = none := by decide
/-- VP13: the same eight bytes under both values of `PREFIX_PO`. -/
theorem test_decode_under_both_prefix_po :
    decodeAt .fourteen true .standard (fetchFrom (tableBytes 64 0x3A00000138632345)) 0 = .ok (.paddi 3 3 1 0x2345, 8) ∧
    decodeAt .one true .standard (fetchFrom (tableBytes 64 0x3A00000138632345)) 0 = .ok (.addi 16 0 1, 4) := by decide
/-- R10, R68: the extreme immediates (VP2, VP3, VP5; VA4). -/
theorem test_immediates :
    sext64 (0x8000#16) = 0xFFFFFFFFFFFF8000#64 ∧ sext64 (imm34 0x20000 0) = 0xFFFFFFFE00000000#64 ∧
    sext64 (imm34 0x1FFFF 0xFFFF) = 0x1FFFFFFFF#64 ∧ sext64 (imm34 0 0x8000) = 0x8000#64 := by decide

/-! ## Single steps -/

def addiWord : State := machine [0x38, 0x63, 0x00, 0x15]
def paddiWords : State := machine [0x06, 0x00, 0x00, 0x01, 0x38, 0x63, 0x23, 0x45]
def hAddParcel : State := ((machine [0x14, 0x02]).setReg 3 5).setReg 4 7
def hsAddParcel : State := ((machine [0x14, 0x03]).setReg 3 5).setReg 4 7
def cAddParcel : State := ((compressed [0x04, 0x02]).setReg 3 5).setReg 4 7
def csAddParcel : State := ((compressed [0x04, 0x03]).setReg 3 5).setReg 4 7
def cstAddParcel : State := ((compressed [0x84, 0x03, 0x38, 0xA3, 0x00, 0x01]).setReg 3 5).setReg 4 7
def allZero : State := machine [0, 0, 0, 0, 0, 0]

/-- VA1. -/
theorem test_step_addi : view 3 (step (addiWord.setReg 3 0x10)) = some (0x25, 0x1004, .standard, false) := by decide
/-- VA5: RA = 0 is the constant 0, RT = 0 is written. -/
theorem test_step_addi_r0 :
    view 0 (step ((machine [0x38, 0x00, 0x7F, 0xFF]).setReg 0 0x1234)) = some (0x7FFF, 0x1004, .standard, false) := by
  decide
/-- VP1. -/
theorem test_step_paddi : view 3 (step paddiWords) = some (0x12345, 0x1008, .standard, false) := by decide
/-- VP4. -/
theorem test_step_paddi_minus_one :
    view 31 (step ((machine [0x06, 0x03, 0xFF, 0xFF, 0x3B, 0xE6, 0xFF, 0xFF]).setReg 6 0x2A)) =
      some (0x29, 0x1008, .standard, false) := by decide
/-- VH1. -/
theorem test_step_h_add : view 3 (step hAddParcel) = some (12, 0x1002, .standard, false) := by decide
/-- VH3: one register twice, and the sum wraps. -/
theorem test_step_h_add_wraps :
    view 3 (step ((machine [0x14, 0x00]).setReg 3 0xFFFFFFFFFFFFFFFF)) =
      some (0xFFFFFFFFFFFFFFFE, 0x1002, .standard, false) := by decide
/-- VH2. -/
theorem test_step_hs_add : view 3 (step hsAddParcel) = some (12, 0x1002, .compressed, false) := by decide
/-- VX1, VX2: the refusal records the pc and the 48 bits. -/
theorem test_step_x_placeholder :
    refusalOf (step allZero) = some (.placeholder 0x1000 0) ∧
    refusalOf (step (machine [0x03, 0xFF, 0xFF, 0xFD, 0xFF, 0xFF])) = some (.placeholder 0x1000 0x03FFFFFDFFFF) := by decide
/-- VC1. -/
theorem test_step_c_add : view 3 (step cAddParcel) = some (12, 0x1002, .compressed, false) := by decide
/-- VC2. -/
theorem test_step_cs_add : view 3 (step csAddParcel) = some (12, 0x1002, .standard, false) := by decide
/-- VC3. -/
theorem test_step_cst_add : view 3 (step cstAddParcel) = some (12, 0x1002, .standard, true) := by decide
/-- VP12: a prefix at 58 modulo 64, with the check on and off. -/
def paddiAt58 : State := machineAt 0x103A [0x06, 0x00, 0x00, 0x01, 0x38, 0x63, 0x23, 0x45]
theorem test_step_prefix_crosses :
    faultOf (step paddiAt58) = some (.prefixCrosses64B 0x103A) ∧
    view 3 (step { paddiAt58 with run := { paddiAt58.run with prefixCross64bFaults := false } }) =
      some (0x12345, 0x1042, .standard, false) := by decide
/-- VP11: at 56 modulo 64 it runs. -/
theorem test_step_prefix_at_56 :
    view 3 (step (machineAt 0x1038 [0x06, 0x00, 0x00, 0x01, 0x38, 0x63, 0x23, 0x45])) =
      some (0x12345, 0x1040, .standard, false) := by decide
/-- VH7, VH9, VC9, VF1, VF3. -/
theorem test_step_faults :
    faultOf (step (machine [0x14, 0x80])) = some (.illegalEncoding 0x1000 0x1480) ∧
    faultOf (step (compressed [0x14, 0x02])) = some (.illegalEncoding 0x1000 0x1402) ∧
    faultOf (step (compressed [0x00, 0x00])) = some (.illegalEncoding 0x1000 0x0000) ∧
    faultOf (step (machine [0x38, 0x63])) = some (.fetchOutsideImage 0x1002) ∧
    faultOf (step (machineAt 0x1001 [0x38, 0x63])) = some (.fetchMisaligned 0x1001) := by decide
/-- VP7, VP10, VX3, VF9. -/
theorem test_step_refusals :
    refusalOf (step (machine [0x06, 0x10, 0x00, 0x00])) = some (.outOfScope 0x1000 (.word 0x06100000)) ∧
    refusalOf (step (machine [0x06, 0x00, 0x00, 0x00, 0x60, 0x00, 0x00, 0x00])) =
      some (.outOfScope 0x1000 (.pair 0x0600000060000000)) ∧
    refusalOf (step (machine [0x00, 0x00, 0x02, 0x00])) = some (.outOfScope 0x1000 (.word 0x00000200)) ∧
    refusalOf (step (machine [0x60, 0x00, 0x00, 0x00])) = some (.outOfScope 0x1000 (.word 0x60000000)) := by decide
/-- VX4: the third parcel of a placeholder is fetched before the refusal. -/
theorem test_step_placeholder_at_the_end : faultOf (step (machine [0, 0, 0, 0])) = some (.fetchOutsideImage 0x1004) := by
  decide
/-- The run is over when pc = `END_PC` (R143). -/
theorem test_step_final : refusalOf (step (machine [])) = some (.final 0x1000) := by decide

/-! ## Layouts, launch and the assembler -/

/-- VF5, VF7: the images of E1 and E4 in the three layouts. -/
theorem test_layouts :
    layoutImage .be 0 [0x38, 0x63, 0x00, 0x15] = [0x38, 0x63, 0x00, 0x15] ∧
    layoutImage (.le .three) 0 [0x38, 0x63, 0x00, 0x15] = [0x15, 0x00, 0x63, 0x38] ∧
    layoutImage (.le .one) 0 [0x38, 0x63, 0x00, 0x15] = [0x63, 0x38, 0x15, 0x00] ∧
    layoutImage (.le .three) 0xEE [0x14, 0x02] = [0xEE, 0xEE, 0x02, 0x14] ∧
    layoutImage (.le .one) 0 [0x14, 0x02] = [0x02, 0x14] := by decide
/-- The text of E1, E2, E4, E7 and E8 assembles to the instructions of those vectors (R78, R79); E3 and E6 do not (R80). -/
theorem test_assemble_the_examples :
    (parseLine "addi R3, R3, 0x15".toList >>= assembleLine) = .ok (.addi 3 3 0x15) ∧
    (parseLine "paddi R3, R3, 0x12345".toList >>= assembleLine) = .ok (.paddi 3 3 1 0x2345) ∧
    (parseLine "h.add R3, R4".toList >>= assembleLine) = .ok (.hAdd 0 1) ∧
    (parseLine "hs.add R3, R4".toList >>= assembleLine) = .ok (.hsAdd 0 1) ∧
    (parseLine "cs.add R3, R4".toList >>= assembleLine) = .ok (.csAdd 0 1) ∧
    (parseLine "cst.add R3, R4".toList >>= assembleLine) = .ok (.cstAdd 0 1) ∧
    (parseLine "x.placeholder".toList >>= assembleLine) = .error .noEncoding ∧
    (parseLine "c.addi R3, R4, 0x5".toList >>= assembleLine) = .error .noEncoding := by decide
theorem test_assemble_signed_and_refused :
    (parseLine "addi R6, R0, -0x8000".toList >>= assembleLine) = .ok (.addi 6 0 0x8000) ∧
    (parseLine "addi R6, R0, 0x8000".toList >>= assembleLine) = .error (.immediateOutOfRange 0x8000) ∧
    (parseLine "h.add R7, R4".toList >>= assembleLine) = .error (.notSmallRegister 7) := by decide

/-! ## Witnesses of the hypotheses of the statements -/

/-- FieldIsShiftAndMask. -/
theorem test_witness_field : (11 ≤ 15 ∧ 15 < 32) ∧ (field 0x38630015#32 11 15).toNat = 3 := by decide

/-- DecodeOfEncodeIsTheInstruction, with a `paddi` at 56 modulo 64 under 14, and an `addi` under 14. -/
theorem test_witness_decode_of_encode :
    Instr.wellFormed (.paddi 3 3 1 0x2345) = true ∧ Instr.encodable .fourteen (.paddi 3 3 1 0x2345) = true ∧
    crosses64B true 56 = false ∧
    (∀ k b, (encode .fourteen (.paddi 3 3 1 0x2345))[k]? = some b →
      fetchFrom (List.replicate 56 0 ++ encode .fourteen (.paddi 3 3 1 0x2345)) (56 + k) = .ok b) ∧
    Instr.encodable .fourteen (.addi 15 0 1) = true :=
  ⟨by decide, by decide, by decide, bytes_hold (by decide), by decide⟩

/-- EncodeOfDecodeIsTheBytes and DecodedInstructionIsWellFormed, in both modes and with a prefix's `//` bits set. -/
theorem test_witness_decoded :
    decodeAt .one true .standard (fetchFrom [0x06, 0x6C, 0, 1, 0x38, 0x63, 0x23, 0x45]) 0 = .ok (.paddi 3 3 1 0x2345, 8) ∧
    decodeAt .one true .compressed (fetchFrom [0x84, 0x03]) 0 = .ok (.cstAdd 0 1, 2) := by decide

/-- PaddiIgnoresReservedBits, both clauses. -/
theorem test_witness_paddi_reserved :
    decodeStandard .one true (fetchFrom [0x06, 0, 0, 1, 0x38, 0x63, 0x23, 0x45]) 0 = .ok (.paddi 3 3 1 0x2345, 8) ∧
    fetchFrom [0x06, 0, 0, 1, 0x38, 0x63, 0x23, 0x45] 1 = .ok 0 ∧
    (fun a => if a = 1 then .ok 0x6C else fetchFrom [0x06, 0, 0, 1, 0x38, 0x63, 0x23, 0x45] a) 1 =
      (.ok 0x6C : Except Reject Byte) ∧
    0#8 &&& 0x93#8 = 0x6C#8 &&& 0x93#8 ∧
    (∀ a, a ≠ 0 + 1 → (fun a => if a = 1 then .ok 0x6C else fetchFrom [0x06, 0, 0, 1, 0x38, 0x63, 0x23, 0x45] a) a =
      fetchFrom [0x06, 0, 0, 1, 0x38, 0x63, 0x23, 0x45] a) ∧
    (encode .one (.paddi 3 3 1 0x2345))[1]? = some 0 :=
  ⟨by decide, by decide, by decide, by decide, fun _ h => if_neg h, by decide⟩

/-- StandardDecoderIsTheMaskTable. -/
theorem test_witness_mask_table :
    ∀ k b, (bytesOf 8 0x0600000138632345#64)[k]? = some b →
      fetchFrom (bytesOf 8 0x0600000138632345#64) (0 + k) = .ok b :=
  bytes_hold (by decide)

/-- Po5WithNonzeroSoFaults, at both ends of the range. -/
theorem test_witness_po5 :
    (machine [0x14, 0x80]).Live ∧ (machine [0x14, 0x80]).mode = .standard ∧
      (machine [0x14, 0x80]).parcelAt 0 = .ok 0x1480 ∧
    (machine [0x17, 0xFF]).Live ∧ (machine [0x17, 0xFF]).parcelAt 0 = .ok 0x17FF ∧
    0x1480 ≤ (0x17FF#16).toNat ∧ (0x17FF#16).toNat ≤ 0x17FF := by decide

/-- OutOfScopeWordsAreRefused: another PO, a prefix with R = 1, and a suffix with PO 24 after a prefix at 56 modulo 64. -/
def foreignSuffix : State := machineAt 0x1038 [0x06, 0x00, 0x00, 0x00, 0x60, 0x00, 0x00, 0x00]
theorem test_witness_out_of_scope :
    (machine [0x60, 0x00, 0x00, 0x00]).Live ∧ (machine [0x60, 0x00, 0x00, 0x00]).parcelAt 0 = .ok 0x6000 ∧
      (machine [0x60, 0x00, 0x00, 0x00]).parcelAt 2 = .ok 0 ∧ field 0x6000#16 0 5 = 24#6 ∧
    (machine [0x06, 0x10, 0x00, 0x00]).Live ∧ (machine [0x06, 0x10, 0x00, 0x00]).parcelAt 0 = .ok 0x0610 ∧
      field 0x0610#16 0 5 = 1#6 ∧ field 0x0610#16 11 11 = 1#1 ∧
    foreignSuffix.Live ∧ foreignSuffix.mode = .standard ∧ foreignSuffix.parcelAt 0 = .ok 0x0600 ∧
      foreignSuffix.parcelAt 2 = .ok 0 ∧ foreignSuffix.parcelAt 4 = .ok 0x6000 ∧ foreignSuffix.parcelAt 6 = .ok 0 ∧
      crosses64B foreignSuffix.run.prefixCross64bFaults foreignSuffix.pc = false ∧
      field 0x0600#16 0 5 = foreignSuffix.run.prefixPo.value ∧
      field 0x0600#16 6 7 = 2#2 ∧ field 0x0600#16 8 8 = 0#1 ∧ field 0x0600#16 11 11 = 0#1 := by decide

/-- PlaceholderClassIsRefused: XO 256, and 257 beside it. -/
theorem test_witness_placeholder_class :
    (machine [0, 0, 2, 0]).Live ∧ (machine [0, 0, 2, 0]).parcelAt 0 = .ok 0 ∧
      (machine [0, 0, 2, 0]).parcelAt 2 = .ok 0x0200 ∧ field (0#16 ++ 0x0200#16) 21 30 = 256#10 ∧
    (machine [0, 0, 2, 2, 0, 0]).Live ∧ (machine [0, 0, 2, 2, 0, 0]).parcelAt 0 = .ok 0 ∧
      (machine [0, 0, 2, 2, 0, 0]).parcelAt 2 = .ok 0x0202 ∧ (machine [0, 0, 2, 2, 0, 0]).parcelAt 4 = .ok 0 ∧
      field (0#16 ++ 0x0202#16) 21 30 = 257#10 ∧ field 0#16 0 5 = 0#6 := by decide

/-- LiteralPrefixTakesAddiWords: a word at each end of what is taken, and one just outside. -/
theorem test_witness_literal_words :
    fetchParcel (fetchFrom [0x3A, 0x00, 0, 1]) (0#64).toNat = .ok 0x3A00 ∧
    fetchParcel (fetchFrom [0x3A, 0x00, 0, 1]) ((0#64).toNat + 2) = .ok 1 ∧
    (0x3A00#16 ++ 1#16 : BitVec 32) &&& 0xFF900000#32 = 0x3A000000#32 ∧
    (0x3A6F#16 ++ 1#16 : BitVec 32) &&& 0xFF900000#32 = 0x3A000000#32 ∧
    (0x3A10#16 ++ 1#16 : BitVec 32) &&& 0xFF900000#32 ≠ 0x3A000000#32 ∧ field 0x3A10#16 0 5 = 14#6 := by decide

/-- DecodeReadsOnlyItsBytes: a 16-bit instruction with nothing after it, and with something. -/
theorem test_witness_own_bytes :
    decodeAt .one true .standard (fetchFrom [0x14, 0x02]) 0 = .ok (.hAdd 0 1, 2) ∧
    ∀ k, k < 2 → fetchFrom [0x14, 0x02, 0xFF] ((0#64).toNat + k) = fetchFrom [0x14, 0x02] ((0#64).toNat + k) := by decide

/-- AddiEffect. -/
theorem test_witness_addi : addiWord.mode = .standard ∧ addiWord.Live ∧
    Instr.encodable addiWord.run.prefixPo (.addi 3 3 0x15) = true ∧
    addiWord.HoldsAtPc (bytesOf 4 (BitVec.ofNat 32
      (0x38000000 + (3#5).toNat * 2 ^ 21 + (3#5).toNat * 2 ^ 16 + (0x15#16).toNat))) :=
  ⟨by decide, by decide, by decide, bytes_hold (by decide)⟩

/-- PaddiEffect, with every `//` bit set. -/
theorem test_witness_paddi :
    (machine [0x06, 0x6C, 0, 1, 0x38, 0x63, 0x23, 0x45]).mode = .standard ∧
    (machine [0x06, 0x6C, 0, 1, 0x38, 0x63, 0x23, 0x45]).Live ∧ crosses64B true 0x1000 = false ∧
    (machine [0x06, 0x6C, 0, 1, 0x38, 0x63, 0x23, 0x45]).HoldsAtPc
      (bytesOf 4 (0x06000000#32 ||| (0xFFFFFFFF#32 &&& 0x006C0000#32) ||| (1#18).setWidth 32) ++
        bytesOf 4 (BitVec.ofNat 32
          (0x38000000 + (3#5).toNat * 2 ^ 21 + (3#5).toNat * 2 ^ 16 + (0x2345#16).toNat))) :=
  ⟨by decide, by decide, by decide, bytes_hold (by decide)⟩

/-- HAddEffect. -/
theorem test_witness_h_add : hAddParcel.mode = .standard ∧ hAddParcel.Live ∧
    hAddParcel.HoldsAtPc (bytesOf 2 (BitVec.ofNat 16 (0x1400 + (0#3).toNat * 16 + (1#3).toNat * 2))) :=
  ⟨by decide, by decide, bytes_hold (by decide)⟩

/-- HsAddEffect. -/
theorem test_witness_hs_add : hsAddParcel.mode = .standard ∧ hsAddParcel.Live ∧
    hsAddParcel.HoldsAtPc (bytesOf 2 (BitVec.ofNat 16 (0x1401 + (0#3).toNat * 16 + (1#3).toNat * 2))) :=
  ⟨by decide, by decide, bytes_hold (by decide)⟩

/-- CAddEffect. -/
theorem test_witness_c_add : cAddParcel.mode = .compressed ∧ cAddParcel.Live ∧
    cAddParcel.HoldsAtPc (bytesOf 2 (BitVec.ofNat 16 (0x0400 + (0#3).toNat * 16 + (1#3).toNat * 2))) :=
  ⟨by decide, by decide, bytes_hold (by decide)⟩

/-- CsAddEffect. -/
theorem test_witness_cs_add : csAddParcel.mode = .compressed ∧ csAddParcel.Live ∧
    csAddParcel.HoldsAtPc (bytesOf 2 (BitVec.ofNat 16 (0x0401 + (0#3).toNat * 16 + (1#3).toNat * 2))) :=
  ⟨by decide, by decide, bytes_hold (by decide)⟩

/-- CstAddEffect. -/
theorem test_witness_cst_add : cstAddParcel.mode = .compressed ∧ cstAddParcel.Live ∧
    cstAddParcel.HoldsAtPc (bytesOf 2 (BitVec.ofNat 16 (0x8401 + (0#3).toNat * 16 + (1#3).toNat * 2))) :=
  ⟨by decide, by decide, bytes_hold (by decide)⟩

/-- SumsWrapWithoutTrace and FrameOfEveryForm: a form of each kind completes. -/
theorem test_witness_exec_completes : (∃ t, exec (.addi 0 0 0x8000) State.reset = .next t) ∧
    (∃ t, exec (.paddi 31 31 0x20000 0) State.reset = .next t) ∧ ∃ t, exec (.hsAdd 7 0) State.reset = .next t :=
  ⟨⟨_, rfl⟩, ⟨_, rfl⟩, ⟨_, rfl⟩⟩

/-- RaZeroNeverReadsRegisterZero, RT = 0 too. -/
theorem test_witness_ra_zero :
    (∃ si, (Instr.addi 0 0 7) = .addi 0 0#5 si) ∨ (∃ si0 si1, (Instr.addi 0 0 7) = .paddi 0 0#5 si0 si1) :=
  .inl ⟨7, rfl⟩

/-- StepRunsTheDecodedInstruction: each of its four clauses. -/
theorem test_witness_step_clauses :
    (machine []).isFinal = true ∧
    ((machineAt 0x1001 [0x14, 0x02]).isFinal = false ∧ (machineAt 0x1001 [0x14, 0x02]).pcIsOdd = true) ∧
    ((machine [0x14]).Live ∧ (machine [0x14]).fetchInstr = .error (.fetchOutsideImage 0x1001)) ∧
    (hAddParcel.Live ∧ hAddParcel.fetchInstr = .ok (.hAdd 0 1, 2)) := by decide

/-- The statements about completed steps, with the invariant (EveryStepKeepsTheInvariant, EveryRunEnds and others). -/
theorem test_witness_invariant_step : hAddParcel.Inv ∧ (∃ t, step hAddParcel = .next t) ∧
    paddiWords.Inv ∧ ∃ t, step paddiWords = .next t :=
  ⟨by decide, next_of_nextOf (by decide), by decide, next_of_nextOf (by decide)⟩

/-- ModeUpdateOfAStep: a pending swap back, `hs.`, another Standard form, and the three Compressed forms. -/
theorem test_witness_mode_update :
    (({ hsAddParcel with swapBack := true } : State).mode = .standard ∧
      ({ hsAddParcel with swapBack := true } : State).fetchInstr = .ok (.hsAdd 0 1, 2) ∧
      ∃ t, step { hsAddParcel with swapBack := true } = .next t) ∧
    (hsAddParcel.fetchInstr = .ok (.hsAdd 0 1, 2) ∧ ∃ t, step hsAddParcel = .next t) ∧
    (addiWord.fetchInstr = .ok (.addi 3 3 0x15, 4) ∧ ∃ t, step addiWord = .next t) ∧
    (cAddParcel.fetchInstr = .ok (.cAdd 0 1, 2) ∧ ∃ t, step cAddParcel = .next t) ∧
    (csAddParcel.fetchInstr = .ok (.csAdd 0 1, 2) ∧ ∃ t, step csAddParcel = .next t) ∧
    (cstAddParcel.fetchInstr = .ok (.cstAdd 0 1, 2) ∧ ∃ t, step cstAddParcel = .next t) :=
  ⟨⟨by decide, by decide, next_of_nextOf (by decide)⟩, ⟨by decide, next_of_nextOf (by decide)⟩,
   ⟨by decide, next_of_nextOf (by decide)⟩, ⟨by decide, next_of_nextOf (by decide)⟩,
   ⟨by decide, next_of_nextOf (by decide)⟩, ⟨by decide, next_of_nextOf (by decide)⟩⟩

/-- The state after the `cst.add` of `cstAddParcel`. -/
def afterCst : State := (cstAddParcel.addSmall 0 1).complete (.cstAdd 0 1)

/-- TemporarySwapLastsOneInstruction, SwapBackFollowsCstOnly and OnlySwapsChangeTheMode (VM2). -/
theorem test_witness_temporary_swap :
    cstAddParcel.fetchInstr = .ok (.cstAdd 0 1, 2) ∧ nextOf (step cstAddParcel) = some afterCst ∧
    afterCst.swapBack = true ∧ afterCst.mode ≠ cstAddParcel.mode ∧ ∃ u, step afterCst = .next u :=
  ⟨by decide, by decide, by decide, by decide, next_of_nextOf (by decide)⟩

/-- CompressedModeKeepsUnnameableRegisters, at the registers next to the nameable ones. -/
theorem test_witness_unnameable : cAddParcel.mode = .compressed ∧ (∃ t, step cAddParcel = .next t) ∧
    ∀ r ∈ [0#5, 2#5, 7#5, 27#5], ¬(3 ≤ r.toNat ∧ r.toNat ≤ 6) ∧ ¬(28 ≤ r.toNat ∧ r.toNat ≤ 31) :=
  ⟨by decide, next_of_nextOf (by decide), by decide⟩

/-- MemoryIsConstantForTheRun and EveryEndingIsWhatItSays: a run with each ending. -/
theorem test_witness_endings :
    ((runFor 2 hAddParcel).map Ending.success = some true) ∧
    (runFor 1 (machine [0x14, 0x80]) = some (.fault (.illegalEncoding 0x1000 0x1480) (machine [0x14, 0x80]))) ∧
    (runFor 1 allZero = some (.refused (.placeholder 0x1000 0) allZero)) := by decide

/-- FetchByteIsTheImageByte: an image in one piece, its first and last byte and the addresses beside them, BE and LE. -/
theorem test_witness_image_byte :
    Memory.contiguousFrom paddiWords.run.imageBase.toNat paddiWords.mem = true ∧
    paddiWords.fetchByte 0x1000 = .ok 0x06 ∧ paddiWords.fetchByte 0x1007 = .ok 0x45 ∧
    paddiWords.fetchByte 0xFFF = .error (.fetchOutsideImage 0xFFF) ∧
    paddiWords.fetchByte 0x1008 = .error (.fetchOutsideImage 0x1008) ∧
    ({ paddiWords with run := { paddiWords.run with endian := .le .three } } : State).fetchByte 0x1000 = .ok 0x01 := by
  decide

/-- LaidOutStreamIsFetchedBack and ByteOrderDoesNotChangeTheRun: E1 laid out BE, and LE with `LE_XOR` = 3. -/
def addiLe3 : State :=
  { addiWord with
    mem := Memory.ofImage addiWord.run.imageBase.toNat (layoutImage (.le .three) 0 [0x38, 0x63, 0x00, 0x15])
    run := { addiWord.run with endian := .le .three } }
theorem test_witness_layout :
    addiWord.run.imageBase.toNat % 4 = 0 ∧ addiWord.run.imageBase.toNat % imageGroup addiWord.run.endian = 0 ∧
    addiLe3.run.imageBase.toNat % imageGroup addiLe3.run.endian = 0 ∧ [0x38#8, 0x63, 0x00, 0x15].length % 4 = 0 ∧
    addiWord.mem = Memory.ofImage addiWord.run.imageBase.toNat
      (layoutImage addiWord.run.endian 0 [0x38, 0x63, 0x00, 0x15]) ∧
    addiLe3.mem = [(0x1000, 0x15), (0x1001, 0x00), (0x1002, 0x63), (0x1003, 0x38)] := by decide

/-- FetchFaultNamesFirstMissingByte and EveryFaultHasItsCause: each fault occurs. -/
theorem test_witness_faults :
    step (machine [0x38, 0x63]) = .fault (.fetchOutsideImage 0x1002) ∧
    step (machineAt 0x1001 [0x38, 0x63]) = .fault (.fetchMisaligned 0x1001) ∧
    step paddiAt58 = .fault (.prefixCrosses64B 0x103A) ∧
    step (machine [0x14, 0x80]) = .fault (.illegalEncoding 0x1000 0x1480) ∧
    step (compressed [0x84, 0x02]) = .fault (.illegalEncoding 0x1000 0x8402) :=
  ⟨fault_of_faultOf (by decide), fault_of_faultOf (by decide), fault_of_faultOf (by decide),
   fault_of_faultOf (by decide), fault_of_faultOf (by decide)⟩

/-- EveryRefusalHasItsCause: each refusal occurs. -/
theorem test_witness_refusals :
    step (machine []) = .refused (.final 0x1000) ∧ step allZero = .refused (.placeholder 0x1000 0) ∧
    step (machine [0x60, 0, 0, 0]) = .refused (.outOfScope 0x1000 (.word 0x60000000)) ∧
    step foreignSuffix = .refused (.outOfScope 0x1038 (.pair 0x0600000060000000)) :=
  ⟨refused_of_refusalOf (by decide), refused_of_refusalOf (by decide), refused_of_refusalOf (by decide),
   refused_of_refusalOf (by decide)⟩

/-- PrefixMayNotCross64Bytes: the hypotheses of its first clause. -/
abbrev CrossingAt (s : State) : Prop :=
  s.Live ∧ s.mode = .standard ∧ s.run.prefixPo = .one ∧ s.run.prefixCross64bFaults = true ∧
  s.parcelAt 0 = .ok 0x0600 ∧ s.parcelAt 2 = .ok 1 ∧ field 0x0600#16 0 5 = 1#6 ∧
  (s.pc.toNat % 64 = 58 ∨ s.pc.toNat % 64 = 60 ∨ s.pc.toNat % 64 = 62)
theorem test_witness_crossing_58 : CrossingAt (machineAt 0x103A [0x06, 0, 0, 1]) := by decide
theorem test_witness_crossing_60 : CrossingAt (machineAt 0x103C [0x06, 0, 0, 1]) := by decide
theorem test_witness_crossing_62 : CrossingAt (machineAt 0x103E [0x06, 0, 0, 1]) := by decide

/-- PcStaysEven, first clause. -/
theorem test_witness_odd_pc :
    (machineAt 0x1001 [0x14, 0x02]).isFinal = false ∧ (machineAt 0x1001 [0x14, 0x02]).pc.toNat % 2 = 1 := by decide

/-- TerminalOutcomesInOrder: a state for each clause that the tests above do not hold one for. -/
theorem test_witness_outcome_order :
    ((machine [0x14]).pcIsOdd = false ∧ (machine [0x14]).parcelAt 0 = .error (.fetchOutsideImage 0x1001)) ∧
    ((machine [0x38, 0x63]).parcelAt 0 = .ok 0x3863 ∧
      (machine [0x38, 0x63]).parcelAt 2 = .error (.fetchOutsideImage 0x1002)) ∧
    ((machine [0, 0, 0, 0]).parcelAt 2 = .ok 0 ∧
      (machine [0, 0, 0, 0]).parcelAt 4 = .error (.fetchOutsideImage 0x1004)) ∧
    ((machine [0x06, 0, 0, 0]).parcelAt 2 = .ok 0 ∧ isPaddiPrefix (0x0600#16 ++ 0#16) = true ∧
      (machine [0x06, 0, 0, 0]).parcelAt 4 = .error (.fetchOutsideImage 0x1004)) ∧
    ((machine [0x06, 0, 0, 0, 0x38, 0]).parcelAt 4 = .ok 0x3800 ∧
      (machine [0x06, 0, 0, 0, 0x38, 0]).parcelAt 6 = .error (.fetchOutsideImage 0x1006)) ∧
    (isPaddiPrefix (0x0610#16 ++ 0#16) = false) ∧
    ((compressed [0x84, 0x02]).parcelAt 0 = .ok 0x8402 ∧ field 0x8402#16 0 0 = 1#1 ∧ field 0x8402#16 15 15 = 0#1) := by
  decide

/-- The launch of T7 of spec/95, with every register at 1. -/
def launchT7 : LaunchArgs :=
  { endian := .le, leXor := some .three, prefixPo := .one, prefixCross64bFaults := true, imageBase := 0x1000,
    image := layoutImage (.le .three) 0 [0x38, 0x63, 0x00, 0x15, 0x06, 0, 0, 1, 0x38, 0x63, 0x23, 0x45],
    entryPc := 0x1000, endPc := some 0x100C, x0 := Vector.replicate 32 1 }

/-- LaunchBuildsTheLaunchState and LaunchMeetsTheInvariant: a launch that succeeds, one without `LE_XOR`, and one whose
`END_PC` is past the image. -/
theorem test_witness_launch :
    launchT7.order = some (.le .three) ∧ constraintsHold (launchT7.consts (.le .three)) launchT7.image.length ∧
    launch launchT7 = .ok (launchT7.state (.le .three)) ∧
    launch { launchT7 with leXor := none } = .error .leXorMissing ∧
    launch { launchT7 with endPc := some 0x100E } = .error .constraints ∧
    ¬constraintsHold { launchT7.consts (.le .three) with endPc := 0x100E } launchT7.image.length := by
  decide

/-- R6: without `END_PC` the run ends at the end of the image, its padding with it, and the decode parameters are 1 and
true (T6 of spec/95 has 10 bytes of stream and 12 of image). -/
theorem test_launch_defaults :
    (launch { endian := .le, leXor := some .three, imageBase := 0x1000, entryPc := 0x1000,
              image := [0x03, 0x84, 0x03, 0x14, 0x03, 0x04, 0x03, 0x14, 0x00, 0x00, 0x02, 0x14],
              x0 := Vector.replicate 32 1 }).map State.run =
      .ok { endian := .le .three, prefixPo := .one, prefixCross64bFaults := true,
            imageBase := 0x1000, entryPc := 0x1000, endPc := 0x100C } := by decide

/-- AssembledProgramReadsBack: T6 of spec/95 assembles. -/
theorem test_witness_assembles :
    assemble .one [.add .hs 3 4, .add .cst 3 4, .add .hs 3 4, .add .cs 3 4, .add .h 3 4] =
      .ok [.hsAdd 0 1, .cstAdd 0 1, .hsAdd 0 1, .csAdd 0 1, .hAdd 0 1] := by decide

/-- AssemblerAcceptsExactly: both ends of both ranges, and the numbers beside them. -/
theorem test_witness_assembler_ranges :
    assembleLine (.addi 31 0 (-32768)) = .ok (.addi 31 0 0x8000) ∧
    assembleLine (.addi 31 0 32768) = .error (.immediateOutOfRange 32768) ∧
    assembleLine (.addi 32 0 0) = .error (.noSuchRegister 32) ∧
    assembleLine (.paddi 4 0 (-0x200000000)) = .ok (.paddi 4 0 0x20000 0) ∧
    assembleLine (.paddi 4 0 0x1FFFFFFFF) = .ok (.paddi 4 0 0x1FFFF 0xFFFF) ∧
    assembleLine (.paddi 4 0 0x200000000) = .error (.immediateOutOfRange 0x200000000) := by decide

/-! ## The host's probe -/

/-- A table word is the first instruction after reset (log entries 12 and 13). -/
theorem test_probe :
    view 3 (step (State.reset.withFetchWord 32 0x38630015)) = some (0x15, 0x1004, .standard, false) ∧
    view 3 (step (State.reset.withFetchWord 64 0x0600000138632345)) = some (0x12345, 0x1008, .standard, false) ∧
    refusalOf (step (State.reset.withFetchWord 48 0)) = some (.placeholder 0x1000 0) ∧
    view 3 (step (State.reset.withFetchWord 16 0x8403)) = some (0, 0x1002, .standard, true) := by decide

end Sys2Proof.Tests
end

section
/-! ## Scope (spec/00_scope.md) -/

namespace Sys2Proof

/-- Settles O2: the quotient of `field_toNat` is the shift, its remainder by a power of two the mask (R9). -/
theorem fieldIsShiftAndMask : Obligations.FieldIsShiftAndMask := by
  intro n insn a b _ _
  rw [field_toNat, Nat.shiftRight_eq_div_pow, Nat.one_shiftLeft, Nat.and_two_pow_sub_one_eq_mod]

end Sys2Proof
end

section
/-! ## What decodes: its bytes were fetched, and it is well formed (spec/10_state.md R27; spec/30_encoding.md R65, R69) -/

namespace Sys2Proof

variable {p : PrefixPo} {cross : Bool} {fetch : Nat → Except Reject Byte} {pc : Word} {i : Instr} {n : Nat}

/-- Decode in Compressed mode is the decoder of the one parcel it fetches (R74). -/
theorem decodeAt_compressed_ok (hd : decodeAt p cross .compressed fetch pc = .ok (i, n)) :
    ∃ h, fetchParcel fetch pc.toNat = .ok h ∧ decodeCompressed pc h = .ok (i, n) := by
  simp only [decodeAt] at hd
  cases hp : fetchParcel fetch pc.toNat with
  | error r => rw [hp] at hd; cases hd
  | ok h => rw [hp] at hd; exact ⟨h, rfl, hd⟩

/-- Whatever decodes, its last parcel was fetched (spec/20_memory.md R47). -/
theorem decodeAt_last_parcel {m : Mode} (hd : decodeAt p cross m fetch pc = .ok (i, n)) :
    ∃ h, fetchParcel fetch (pc.toNat + (n - 2)) = .ok h := by
  cases m with
  | standard =>
    obtain ⟨a, ha, ⟨-, h⟩ | ⟨-, b, hb, ⟨-, h⟩ | ⟨-, -, -, -, h⟩ | ⟨-, -, h⟩⟩⟩ := decodeStandard_ok hd
    · obtain ⟨-, rfl, -⟩ := decodeH16_ok h
      exact ⟨a, ha⟩
    · obtain ⟨-, c, hc, rfl, -⟩ := decodeX48_ok h
      exact ⟨c, hc⟩
    · obtain ⟨-, d, -, hd', -, rfl, -⟩ := decodeSuffix_ok h
      exact ⟨d, hd'⟩
    · cases h
      exact ⟨b, hb⟩
  | compressed =>
    obtain ⟨h, hh, hc⟩ := decodeAt_compressed_ok hd
    obtain ⟨-, -, rfl, -⟩ := decodeCompressed_ok hc
    exact ⟨h, hh⟩

/-- XO of a 48-bit instruction lies in its first 32 bits (R65). -/
theorem field_xo_append (w : BitVec 32) (c : Parcel) : field (w ++ c : BitVec 48) 21 30 = field w 21 30 :=
  BitVec.eq_of_toNat_eq (by
    have h : (w ++ c : BitVec 48).toNat = w.toNat * 2 ^ 16 + c.toNat := toNat_cat w c
    rw [field_toNat, field_toNat, h]
    omega)

/-- The `addi` words that `PREFIX_PO` = 14 takes away are those `isPaddiPrefix` holds of (R69). -/
theorem addiIsPrefix14_fields (w : BitVec 32) :
    addiIsPrefix14 (field w 6 10) (field w 11 15) = isPaddiPrefix w := by
  have h₁ : field w 6 7 = 2#2 ↔ (field w 6 7).toNat = 2 := BitVec.toNat_inj.symm
  have h₂ : field w 8 8 = 0#1 ↔ (field w 8 8).toNat = 0 := BitVec.toNat_inj.symm
  have h₃ : field w 11 11 = 0#1 ↔ (field w 11 11).toNat = 0 := BitVec.toNat_inj.symm
  rw [field_toNat] at h₁ h₂ h₃
  rw [Bool.eq_iff_iff]
  simp only [addiIsPrefix14, isPaddiPrefix, Bool.and_eq_true, decide_eq_true_eq, field_toNat]
  refine Iff.trans ?_ (and_congr (and_congr h₁ h₂) h₃).symm
  omega

/-- `decodeH16` gives only forms that every `PREFIX_PO` encodes. -/
theorem decodeH16_wellFormed {h : Parcel} (hd : decodeH16 pc h = .ok (i, n)) :
    i.wellFormed = true ∧ i.encodable p = true := by
  obtain ⟨-, -, ⟨-, rfl⟩ | ⟨-, rfl⟩⟩ := decodeH16_ok hd <;> exact ⟨rfl, rfl⟩

/-- `decodeCompressed` gives only forms that every `PREFIX_PO` encodes. -/
theorem decodeCompressed_wellFormed {h : Parcel} (hd : decodeCompressed pc h = .ok (i, n)) :
    i.wellFormed = true ∧ i.encodable p = true := by
  obtain ⟨-, -, -, ⟨-, -, rfl⟩ | ⟨-, -, rfl⟩ | ⟨-, -, rfl⟩⟩ := decodeCompressed_ok hd <;> exact ⟨rfl, rfl⟩

/-- The 48-bit class is decoded only where XO is not 256 (R65, R73). -/
theorem decodeX48_wellFormed {w : BitVec 32} (hd : decodeX48 fetch pc w = .ok (i, n)) :
    i.wellFormed = true ∧ i.encodable p = true := by
  obtain ⟨hxo, c, -, -, rfl⟩ := decodeX48_ok hd
  rw [← field_xo_append w c] at hxo
  exact ⟨bne_iff_ne.mpr hxo, rfl⟩

/-- An `addi` is decoded only where `PREFIX_PO` = 14 does not take the word (R69). -/
theorem decodeS32_wellFormed {w : BitVec 32} (hw : p = .fourteen → isPaddiPrefix w = false)
    (hd : (i, n) = decodeS32 w) : i.wellFormed = true ∧ i.encodable p = true := by
  cases hd
  refine ⟨rfl, ?_⟩
  cases p with
  | one => rfl
  | fourteen => simp [Instr.encodable, addiIsPrefix14_fields, hw rfl]

/-- What either decoder gives is an instruction of the machine that `PREFIX_PO` encodes (R65, R69). -/
theorem decodeAt_wellFormed {m : Mode} (hd : decodeAt p cross m fetch pc = .ok (i, n)) :
    i.wellFormed = true ∧ i.encodable p = true := by
  cases m with
  | standard =>
    obtain ⟨a, -, ⟨-, h⟩ | ⟨-, b, -, ⟨-, h⟩ | ⟨-, -, -, -, h⟩ | ⟨-, hw, h⟩⟩⟩ := decodeStandard_ok hd
    · exact decodeH16_wellFormed h
    · exact decodeX48_wellFormed h
    · obtain ⟨-, -, -, -, -, -, rfl⟩ := decodeSuffix_ok h
      exact ⟨rfl, rfl⟩
    · exact decodeS32_wellFormed hw h
  | compressed =>
    obtain ⟨h, -, hc⟩ := decodeAt_compressed_ok hd
    exact decodeCompressed_wellFormed hc

/-- Settles O5: decode gives the form's own width and mode, and the two conditions its type does not hold. -/
theorem decodedInstructionIsWellFormed : Obligations.DecodedInstructionIsWellFormed := by
  intro p cross m fetch pc i n hd
  obtain ⟨hwf, henc⟩ := decodeAt_wellFormed hd
  obtain ⟨hn, hm⟩ := decodeAt_width hd
  exact ⟨hwf, hm, hn, henc⟩

end Sys2Proof
end

section
/-! ## The mode update (spec/10_state.md R26 to R28) -/

namespace Sys2Proof.Machine

@[simp] theorem nextMode_pending (i : Instr) : nextMode .standard true i = (.compressed, false) := rfl
@[simp] theorem nextMode_standard (i : Instr) : nextMode .standard false i = ownNextMode i := rfl
@[simp] theorem nextMode_compressed (b : Bool) (i : Instr) : nextMode .compressed b i = ownNextMode i := by
  cases b <;> rfl

/-- Among the forms' own rows only that of `cst.add` sets swap_back (R27). -/
theorem ownNextMode_swapBack_iff (i : Instr) : (ownNextMode i).2 = true ↔ ∃ a b, i = .cstAdd a b := by
  cases i <;> simp [ownNextMode]

/-- The own row of a Standard-mode form: `hs.add` swaps, the others stay (R27). -/
theorem ownNextMode_of_standard {i : Instr} (h : i.mode = .standard) :
    ((∃ a b, i = .hsAdd a b) → ownNextMode i = (.compressed, false)) ∧
    ((¬∃ a b, i = .hsAdd a b) → ownNextMode i = (.standard, false)) := by
  cases i <;> simp [Instr.mode, ownNextMode] at h ⊢

/-- The own row of a Compressed-mode form (R27). -/
theorem ownNextMode_of_compressed {i : Instr} (h : i.mode = .compressed) :
    (∃ a b, i = .cAdd a b ∧ ownNextMode i = (.compressed, false)) ∨
    (∃ a b, i = .csAdd a b ∧ ownNextMode i = (.standard, false)) ∨
    (∃ a b, i = .cstAdd a b ∧ ownNextMode i = (.standard, true)) := by
  cases i <;> simp [Instr.mode, ownNextMode] at h ⊢

/-- In the mode that decodes it, only `cst.add` leaves a swap back pending, and it does so always (R26, R28). -/
theorem nextMode_swapBack_iff {i : Instr} {m : Mode} (b : Bool) (h : i.mode = m) :
    (nextMode m b i).2 = true ↔ ∃ a c, i = .cstAdd a c := by
  cases m with
  | compressed => rw [nextMode_compressed, ownNextMode_swapBack_iff]
  | standard =>
    cases b with
    | false => rw [nextMode_standard, ownNextMode_swapBack_iff]
    | true =>
      refine ⟨nofun, ?_⟩
      rintro ⟨a, c, rfl⟩
      cases h

/-- The form's own row leaves a swap back pending in Standard mode only (R27). -/
theorem ownNextMode_swapBack_standard {i : Instr} (h : (ownNextMode i).2 = true) : (ownNextMode i).1 = .standard := by
  obtain ⟨a, c, rfl⟩ := (ownNextMode_swapBack_iff i).mp h
  rfl

/-- A swap back is left pending in Standard mode only (R26). -/
theorem nextMode_swapBack_standard {m : Mode} {b : Bool} {i : Instr} (h : (nextMode m b i).2 = true) :
    (nextMode m b i).1 = .standard := by
  cases m with
  | compressed =>
    rw [nextMode_compressed] at h ⊢
    exact ownNextMode_swapBack_standard h
  | standard =>
    cases b with
    | false => exact ownNextMode_swapBack_standard h
    | true => cases h

/-- The mode and swap_back that a completed step leaves. -/
theorem step_next_mode {s t : State} {i : Instr} {n : Nat} (hi : s.fetchInstr = .ok (i, n)) (h : step s = .next t) :
    i.mode = s.mode ∧ (t.mode, t.swapBack) = nextMode s.mode s.swapBack i := by
  obtain ⟨-, j, k, hj, -, hm, he⟩ := step_next h
  cases hi.symm.trans hj
  obtain ⟨-, h₁, h₂, -, -, -⟩ := exec_completes he
  exact ⟨hm, by rw [h₁, h₂]⟩

/-- After a completed step a pending swap back means Standard mode (R26). -/
theorem step_next_swapBack_standard {s t : State} (h : step s = .next t) (ht : t.swapBack = true) :
    t.mode = .standard := by
  obtain ⟨-, i, n, -, -, -, he⟩ := step_next h
  obtain ⟨-, h₁, h₂, -, -, -⟩ := exec_completes he
  rw [h₁]
  exact nextMode_swapBack_standard (h₂ ▸ ht)

/-- After a completed step a swap back is pending exactly when the step was a `cst.add` (R26). -/
theorem step_next_swapBack_iff {s t : State} (h : step s = .next t) :
    t.swapBack = true ↔ ∃ a b, s.fetchInstr = .ok (.cstAdd a b, 2) := by
  obtain ⟨-, i, n, hi, rfl, hm, he⟩ := step_next h
  obtain ⟨-, -, h₂, -, -, -⟩ := exec_completes he
  rw [h₂, nextMode_swapBack_iff s.swapBack hm, hi]
  constructor
  · rintro ⟨a, b, rfl⟩
    exact ⟨a, b, rfl⟩
  · rintro ⟨a, b, hab⟩
    cases hab
    exact ⟨a, b, rfl⟩

/-- A pending swap back never survives a completed step: in Standard mode nothing decodes as `cst.add` (R26, R28). -/
theorem step_next_clears_swapBack {s t : State} (hb : s.swapBack = true) (hm : s.mode = .standard)
    (h : step s = .next t) : t.swapBack = false := by
  obtain ⟨-, i, n, -, -, -, he⟩ := step_next h
  obtain ⟨-, -, h₂, -, -, -⟩ := exec_completes he
  rw [h₂, hm, hb, nextMode_pending]

/-- A launch that succeeds gives the state of its arguments, which meets the constraints (R140). -/
theorem launch_ok {a : LaunchArgs} {s : State} (h : launch a = .ok s) :
    ∃ e, a.order = some e ∧ constraintsHold (a.consts e) a.image.length ∧ s = a.state e := by
  unfold launch at h
  split at h
  · cases h
  · next e he =>
    split at h
    · next hc => cases h; exact ⟨e, he, hc, rfl⟩
    · cases h

/-- Settles O30: the step's mode update is `nextMode` of the decoded form, read row by row. -/
theorem modeUpdateOfAStep : Obligations.ModeUpdateOfAStep := by
  intro s t i n _ hi h
  obtain ⟨hm, hn⟩ := step_next_mode hi h
  refine ⟨fun hs hb => ?_, fun hs hb => ?_, fun hs => ?_⟩
  · rw [hs, hb, nextMode_pending] at hn
    exact Prod.mk.inj hn
  · rw [hs, hb, nextMode_standard] at hn
    obtain ⟨h₁, h₂⟩ := ownNextMode_of_standard (hm.trans hs)
    exact ⟨fun hx => Prod.mk.inj (hn.trans (h₁ hx)), fun hx => Prod.mk.inj (hn.trans (h₂ hx))⟩
  · rw [hs, nextMode_compressed] at hn
    refine (ownNextMode_of_compressed (hm.trans hs)).imp ?_ (Or.imp ?_ ?_) <;>
    · rintro ⟨a, b, hi, ho⟩
      exact ⟨a, b, hi, Prod.mk.inj (hn.trans ho)⟩

/-- Settles O31: the step lemmas above, and `launch`, which leaves no swap back pending. -/
theorem swapBackFollowsCstOnly : Obligations.SwapBackFollowsCstOnly := by
  refine ⟨fun s t h => ⟨step_next_swapBack_iff h, step_next_swapBack_standard h, fun u ht hu => ?_⟩, ?_⟩
  · exact step_next_clears_swapBack ht (step_next_swapBack_standard h ht) hu
  · intro a s h hb
    obtain ⟨e, -, -, rfl⟩ := launch_ok h
    cases hb

end Sys2Proof.Machine
end

section
/-! ## The pc, and the invariant of every step (spec/10_state.md R24, R34; spec/20_memory.md R41, R48, R49) -/

namespace Sys2Proof.Machine

/-- A final state has no step; the model answers `final` (spec/70_reset_and_hazards.md R143, log entry 6). -/
theorem step_of_final {s : State} (h : s.isFinal = true) : step s = .refused (.final s.pc) := by
  rw [step, if_pos h]

/-- An odd pc faults (R34 step 1, R48). -/
theorem step_of_odd {s : State} (hf : s.isFinal = false) (ho : s.pcIsOdd = true) :
    step s = .fault (.fetchMisaligned s.pc) := by
  rw [step, hf, ho]
  rfl

/-- Settles O28: the four clauses of R34, the last two what decode answers at a live state. -/
theorem stepRunsTheDecodedInstruction : Obligations.StepRunsTheDecodedInstruction := by
  intro s
  refine ⟨step_of_final, step_of_odd, fun r hl hr => ?_, fun i n hl hi => ?_⟩
  · rw [step_of_live hl, hr]
  · rw [step_of_live hl, hi]

/-- The permutation of R44 moves a byte within its aligned group only. -/
theorem xor_xorMask_div (e : Endian) (a : Nat) : (a ^^^ xorMask e) / imageGroup e = a / imageGroup e := by
  have h (k m : Nat) (hm : m / 2 ^ k = 0) : (a ^^^ m) / 2 ^ k = a / 2 ^ k := by
    rw [Nat.xor_div_two_pow, hm, Nat.xor_zero]
  match e with
  | .be => exact h 1 0 rfl
  | .le .one => exact h 1 1 rfl
  | .le .three => exact h 2 3 rfl

/-- With the image's end on a group boundary, the permutation of R44 takes no address across it. -/
theorem lt_of_xor_xorMask_lt {e : Endian} {a top : Nat} (htop : imageGroup e ∣ top) (h : a ^^^ xorMask e < top) :
    a < top := by
  have hpos : 0 < imageGroup e := by rcases e with _ | _ | _ <;> decide
  obtain ⟨q, rfl⟩ := htop
  rw [Nat.mul_comm, ← Nat.div_lt_iff_lt_mul hpos] at h ⊢
  rwa [xor_xorMask_div] at h

/-- Under the invariant a byte that fetch gives lies before the end of the image (R49). -/
theorem State.lt_imageEnd_of_fetchByte {s : State} (hs : s.Inv) {a : Nat} {b : Byte} (h : s.fetchByte a = .ok b) :
    a < s.imageEnd := by
  obtain ⟨⟨-, hbase, hlen, -⟩, hcont, -⟩ := hs
  refine lt_of_xor_xorMask_lt (Nat.dvd_add (Nat.dvd_of_mod_eq_zero hbase) (Nat.dvd_of_mod_eq_zero hlen)) ?_
  unfold State.fetchByte at h
  rw [Memory.read_of_contiguous hcont] at h
  split at h
  · next c hc =>
    split at hc
    · cases hc
    · obtain ⟨d, hd, -⟩ := Option.map_eq_some_iff.mp hc
      obtain ⟨hlt, -⟩ := List.getElem?_eq_some_iff.mp hd
      show _ < s.run.imageBase.toNat + s.mem.length
      omega
  · cases h

/-- Under the invariant a decoded instruction lies inside the image (R24, R49). -/
theorem State.fetchInstr_le_imageEnd {s : State} (hs : s.Inv) {i : Instr} {n : Nat}
    (h : s.fetchInstr = .ok (i, n)) : s.pc.toNat + n ≤ s.imageEnd := by
  obtain ⟨c, hc⟩ := decodeAt_last_parcel h
  obtain ⟨-, lo, -, hlo, -⟩ := fetchParcel_ok.mp hc
  have := State.lt_imageEnd_of_fetchByte hs hlo
  omega

/-- Under the invariant a completed step advances the pc by the width of the form it decoded, as a number: the sum
neither wraps nor passes the end of the image (R24). -/
theorem step_next_pc {s t : State} (hs : s.Inv) {i : Instr} {n : Nat} (hi : s.fetchInstr = .ok (i, n))
    (ht : t.pc = s.pc + BitVec.ofNat 64 n) : t.pc.toNat = s.pc.toNat + n ∧ t.pc.toNat ≤ s.imageEnd := by
  have hle := State.fetchInstr_le_imageEnd hs hi
  have htop : s.imageEnd < 2 ^ 64 := hs.1.1
  have hpc : t.pc.toNat = s.pc.toNat + n := by
    rw [ht, BitVec.toNat_add, BitVec.toNat_ofNat]
    omega
  exact ⟨hpc, hpc ▸ hle⟩

/-- Settles O29: the form's own width, with `step_next_pc` under the invariant. -/
theorem completedStepAdvancesByTheWidth : Obligations.CompletedStepAdvancesByTheWidth := by
  intro s t h
  obtain ⟨-, i, n, hi, rfl, -, he⟩ := step_next h
  obtain ⟨hpc, -⟩ := exec_completes he
  refine ⟨i, i.width, hi, hpc, ?_, fun hs => step_next_pc hs hi hpc⟩
  cases i with
  | xPlaceholder _ _ _ => cases he
  | _ => rfl

/-- Settles O48: the constants and the image do not change, the pc grows by an even width and stays in the image, and
only `cst.add` leaves a swap back pending, in Standard mode. -/
theorem everyStepKeepsTheInvariant : Obligations.EveryStepKeepsTheInvariant := by
  intro s t hs h
  obtain ⟨-, i, n, hi, rfl, -, he⟩ := step_next h
  obtain ⟨hpc, -, -, hmem, hrun, hw⟩ := exec_completes he
  obtain ⟨hsum, hend⟩ := step_next_pc hs hi hpc
  obtain ⟨hconst, hcont, heven, hentry, -, -⟩ := hs
  refine ⟨?_, ?_, ?_, ?_, ?_, step_next_swapBack_standard h⟩
  · rwa [hmem, hrun]
  · rwa [hmem, hrun]
  · omega
  · rw [hrun]
    omega
  · rwa [State.imageEnd, hmem, hrun]

/-- Settles O47: the reset state is concrete, so each clause is evaluated. -/
theorem resetMeetsTheInvariant : Obligations.ResetMeetsTheInvariant :=
  ⟨by decide, State.reset_mem_wf, rfl, rfl, rfl, by decide⟩

end Sys2Proof.Machine
end

section
/-! ## Registers: the small set, register 0 as RA, and the frame (spec/10_state.md R21, R22, R30) -/

namespace Sys2Proof.Machine

/-- The formula of R22. -/
theorem small_toNat (c : SmallCode) : (small c).toNat = if c.toNat < 4 then c.toNat + 3 else c.toNat + 24 := by
  have h : c < 4#3 ↔ c.toNat < 4 := Iff.rfl
  simp only [small, h]
  split <;> simp only [BitVec.toNat_add, BitVec.toNat_setWidth, BitVec.toNat_ofNat] <;> omega

/-- Settles O16: the table by evaluation, the formula, and the eight codes as witnesses. -/
theorem smallRegisterTable : Obligations.SmallRegisterTable := by
  refine ⟨by decide, small_toNat, fun r => ⟨?_, ?_⟩⟩
  · rintro ⟨c, rfl⟩
    revert c
    decide
  · rintro (rfl | rfl | rfl | rfl | rfl | rfl | rfl | rfl)
    exacts [⟨0, rfl⟩, ⟨1, rfl⟩, ⟨2, rfl⟩, ⟨3, rfl⟩, ⟨4, rfl⟩, ⟨5, rfl⟩, ⟨6, rfl⟩, ⟨7, rfl⟩]

/-- A register other than the one written keeps its value through a completed form (R34). -/
theorem State.reg_setReg_complete {s : State} {r q : RegNum} (v : Word) (i : Instr) (h : q ≠ r) :
    ((s.setReg r v).complete i).reg q = s.reg q := by
  rw [State.complete_reg, State.reg_setReg_other s r q v h]

/-- Settles O34: in Compressed mode the one register written is `small` of a code (R22). -/
theorem compressedModeKeepsUnnameableRegisters : Obligations.CompressedModeKeepsUnnameableRegisters := by
  intro s t r hs h hlow hhigh
  obtain ⟨-, i, n, -, -, hm, he⟩ := step_next h
  obtain ⟨dest, v, rfl, ⟨_, _, _, rfl, -⟩ | ⟨_, _, _, _, rfl, -⟩ | ⟨srt, -, -, rfl, -⟩⟩ := exec_next he
  · cases hm.trans hs
  · cases hm.trans hs
  · refine State.reg_setReg_complete v i ?_
    rintro rfl
    have hsmall := small_toNat srt
    split at hsmall <;> omega

/-- Settles O26: `exec_next` names the one register written, `exec_completes` the rest. -/
theorem frameOfEveryForm : Obligations.FrameOfEveryForm := by
  intro i s t dest hdest h
  obtain ⟨-, hmode, hswap, hmem, hrun, -⟩ := exec_completes h
  refine ⟨fun r hr => ?_, fun a => by rw [hmem], hmem, hrun, by rw [hmode, hswap]⟩
  obtain ⟨d, v, rfl, hd⟩ := exec_next h
  refine State.reg_setReg_complete v i ?_
  obtain ⟨rt, ra, si, rfl, rfl, -⟩ | ⟨rt, ra, si0, si1, rfl, rfl, -⟩ |
    ⟨srt, srs, rfl | rfl | rfl | rfl | rfl, rfl, -⟩ := hd <;> exact hdest ▸ hr

/-- With RA = 0, `addi` and `paddi` write one value from every state: the immediate (spec/00_scope.md R10; R21). -/
theorem exec_of_ra_zero {i : Instr} {rt : RegNum}
    (h : (∃ si, i = .addi rt 0#5 si) ∨ (∃ si0 si1, i = .paddi rt 0#5 si0 si1)) :
    ∃ v, ∀ s, exec i s = .next ((s.setReg rt v).complete i) := by
  rcases h with ⟨si, rfl⟩ | ⟨si0, si1, rfl⟩
  · exact ⟨0#64 + sext64 si, fun _ => rfl⟩
  · exact ⟨0#64 + sext64 (imm34 si0 si1), fun _ => rfl⟩

/-- Settles O27: the value written is the same from both states, which differ in `x[0]` alone. -/
theorem raZeroNeverReadsRegisterZero : Obligations.RaZeroNeverReadsRegisterZero := by
  intro s v rt i hi
  obtain ⟨w, hw⟩ := exec_of_ra_zero hi
  have hsame (q : State) : ((q.setReg rt w).complete i).reg rt = w := State.reg_setReg_same q rt w
  refine ⟨_, _, hw s, hw (s.setReg 0#5 v), (hsame s).trans (hsame _).symm, fun r hr => ?_, rfl, rfl, rfl⟩
  by_cases hrt : r = rt
  · rw [hrt, hsame, hsame]
  · rw [State.reg_setReg_complete w i hrt, State.reg_setReg_complete w i hrt,
      State.reg_setReg_other s 0#5 r v hr]

end Sys2Proof.Machine
end

section
/-! ## The byte order's permutation and the image laid out for it (spec/20_memory.md R41, R44 to R46) -/

namespace Sys2Proof.Machine

/-- The group is a power of two (R41). -/
theorem imageGroup_eq_two_pow (e : Endian) : ∃ j, imageGroup e = 2 ^ j := by
  match e with
  | .be => exact ⟨1, rfl⟩
  | .le .one => exact ⟨1, rfl⟩
  | .le .three => exact ⟨2, rfl⟩

/-- With a bound on a group boundary, the permutation of R44 takes no address across it in either direction. -/
theorem xor_xorMask_lt_iff {e : Endian} {a top : Nat} (htop : imageGroup e ∣ top) :
    a ^^^ xorMask e < top ↔ a < top :=
  ⟨lt_of_xor_xorMask_lt htop, fun h => lt_of_xor_xorMask_lt htop (by rwa [Nat.xor_xor_cancel_right])⟩

/-- The permutation of R44 acts on the distance from an aligned base. -/
theorem add_xor_xorMask {e : Endian} {base : Nat} (hbase : imageGroup e ∣ base) (k : Nat) :
    (base + k) ^^^ xorMask e = base + (k ^^^ xorMask e) := by
  obtain ⟨j, hj⟩ := imageGroup_eq_two_pow e
  obtain ⟨q, rfl⟩ := hbase
  have hdiv := xor_xorMask_div e
  rw [hj] at hdiv ⊢
  have hquot : ((2 ^ j * q + k) ^^^ xorMask e) / 2 ^ j = (2 ^ j * q + (k ^^^ xorMask e)) / 2 ^ j := by
    rw [hdiv, Nat.mul_add_div (Nat.two_pow_pos j), Nat.mul_add_div (Nat.two_pow_pos j), hdiv]
  have hrem : ((2 ^ j * q + k) ^^^ xorMask e) % 2 ^ j = (2 ^ j * q + (k ^^^ xorMask e)) % 2 ^ j := by
    rw [Nat.xor_mod_two_pow, Nat.mul_add_mod, Nat.mul_add_mod, Nat.xor_mod_two_pow]
  rw [← Nat.div_add_mod ((2 ^ j * q + k) ^^^ xorMask e) (2 ^ j), hquot, hrem, Nat.div_add_mod]

/-- The padded length is a multiple of the group (R41). -/
theorem imageGroup_dvd_paddedLength (e : Endian) (n : Nat) : imageGroup e ∣ paddedLength e n :=
  Nat.dvd_mul_left _ _

/-- Padding does not shorten a stream. -/
theorem le_paddedLength (e : Endian) (n : Nat) : n ≤ paddedLength e n := by
  rcases e with _ | _ | _ <;> simp only [paddedLength, imageGroup] <;> omega

/-- A stream of whole groups of four needs no padding in any byte order. -/
theorem paddedLength_of_mod_four (e : Endian) {n : Nat} (hn : n % 4 = 0) : paddedLength e n = n := by
  rcases e with _ | _ | _ <;> simp only [paddedLength, imageGroup] <;> omega

/-- A base aligned to four is aligned in every byte order. -/
theorem imageGroup_dvd_of_mod_four (e : Endian) {base : Nat} (h : base % 4 = 0) : imageGroup e ∣ base := by
  refine Nat.dvd_of_mod_eq_zero ?_
  rcases e with _ | _ | _ <;> simp only [imageGroup] <;> omega

/-- The image byte at offset `k`, inside the padded length and nowhere else (R45, R46). -/
theorem getElem?_layoutImage (e : Endian) (pad : Byte) (stream : List Byte) (k : Nat) :
    (layoutImage e pad stream)[k]? =
      if k < paddedLength e stream.length then some (stream.getD (k ^^^ xorMask e) pad) else none := by
  rw [layoutImage, List.getElem?_map]
  split
  · next hk => rw [List.getElem?_range hk]; rfl
  · next hk => rw [List.getElem?_eq_none (by simpa using hk)]; rfl

/-- What fetch gives from a laid-out stream: byte `a - base` of the stream, or the padding, from the base up to the
padded length, and nothing elsewhere (R44 to R46). -/
theorem State.fetchByte_of_layout {s : State} {base : Nat} {pad : Byte} {stream : List Byte}
    (hbase : imageGroup s.run.endian ∣ base)
    (hmem : s.mem = Memory.ofImage base (layoutImage s.run.endian pad stream)) (a : Nat) :
    s.fetchByte a =
      if a < base ∨ base + paddedLength s.run.endian stream.length ≤ a then .error (.fetchOutsideImage a)
      else .ok (stream.getD (a - base) pad) := by
  unfold State.fetchByte
  rw [hmem, Memory.read_ofImage]
  by_cases hlow : a < base
  · rw [if_pos ((xor_xorMask_lt_iff hbase).mpr hlow), if_pos (.inl hlow)]
  · obtain ⟨k, rfl⟩ := Nat.exists_eq_add_of_le (Nat.le_of_not_lt hlow)
    have hlt := xor_xorMask_lt_iff (a := k) (imageGroup_dvd_paddedLength s.run.endian stream.length)
    rw [add_xor_xorMask hbase, if_neg (by omega), Nat.add_sub_cancel_left, getElem?_layoutImage,
      Nat.xor_xor_cancel_right, Nat.add_sub_cancel_left]
    by_cases hk : k < paddedLength s.run.endian stream.length
    · rw [if_pos (hlt.mpr hk), if_neg (by omega)]
    · rw [if_neg (mt hlt.mp hk), if_pos (by omega)]

/-- Settles O37: byte `k` of the stream lies inside the padded length, at distance `k` from the base. -/
theorem laidOutStreamIsFetchedBack : Obligations.LaidOutStreamIsFetchedBack := by
  intro s pad stream k b hbase hmem hk
  obtain ⟨hlt, hget⟩ := List.getElem?_eq_some_iff.mp hk
  have hpad := le_paddedLength s.run.endian stream.length
  rw [State.fetchByte_of_layout (Nat.dvd_of_mod_eq_zero hbase) hmem, if_neg (by omega), Nat.add_sub_cancel_left,
    List.getD_eq_getElem _ _ hlt, hget]

/-- Settles O36: XOR of 64-bit addresses is XOR of numbers, and an image in one piece reads as its cells. -/
theorem fetchByteIsTheImageByte : Obligations.FetchByteIsTheImageByte := by
  intro s a hs e p
  have hp : a.toNat ^^^ xorMask s.run.endian = p := by
    simp only [p, e, BitVec.toNat_xor]
    split <;> next he => rw [he]; rfl
  unfold State.fetchByte
  rw [hp, Memory.read_of_contiguous hs]
  by_cases hlow : p < s.run.imageBase.toNat
  · rw [if_pos hlow, if_pos (.inl hlow)]
  · rw [if_neg hlow]
    cases hc : s.mem[p - s.run.imageBase.toNat]? with
    | some c =>
      obtain ⟨hlt, -⟩ := List.getElem?_eq_some_iff.mp hc
      rw [if_neg (by omega)]
      rfl
    | none => exact (ite_self _).symm

/-- Settles O46: `launch_ok` gives the constraints, from which every clause follows at pc = `ENTRY_PC`. -/
theorem launchMeetsTheInvariant : Obligations.LaunchMeetsTheInvariant := by
  intro a s h
  obtain ⟨e, -, hc, rfl⟩ := launch_ok h
  have hlen : (a.state e).mem.length = a.image.length := Memory.length_ofImage _ _
  obtain ⟨-, -, -, -, hend, htop, heven, -⟩ := id hc
  refine ⟨⟨?_, Memory.contiguousFrom_ofImage _ _, heven, Nat.le_refl _, ?_, nofun⟩, Memory.wf_ofImage _ _⟩
  · rwa [hlen]
  · rw [State.imageEnd, hlen]
    exact hend.trans htop

end Sys2Proof.Machine
end

section
/-! ## Runs: their equations, their frame, and runs over another layout (spec/20_memory.md R42, R45, R46;
spec/70_reset_and_hazards.md R143) -/

namespace Sys2Proof.Machine

/-- A run of a final state has ended, whatever its bound (R143). -/
theorem runFor_of_final {s : State} (h : s.isFinal = true) (n : Nat) : runFor n s = some (.final s) := by
  cases n <;> rw [runFor, if_pos h]

/-- A run of no steps from a state that is not final has not ended. -/
theorem runFor_zero {s : State} (h : s.isFinal = false) : runFor 0 s = none := by
  rw [runFor, h]
  rfl

/-- A run from a state that is not final goes on after a completed step. -/
theorem runFor_of_next {s t : State} (h : s.isFinal = false) (hs : step s = .next t) (n : Nat) :
    runFor (n + 1) s = runFor n t := by
  rw [runFor, h, hs]
  rfl

/-- A run from a state that is not final ends in the fault of its first step. -/
theorem runFor_of_fault {s : State} {f : Fault} (h : s.isFinal = false) (hs : step s = .fault f) (n : Nat) :
    runFor (n + 1) s = some (.fault f s) := by
  rw [runFor, h, hs]
  rfl

/-- A run from a state that is not final ends in the refusal of its first step. -/
theorem runFor_of_refused {s : State} {r : Refusal} (h : s.isFinal = false) (hs : step s = .refused r) (n : Nat) :
    runFor (n + 1) s = some (.refused r s) := by
  rw [runFor, h, hs]
  rfl

/-- A run leaves the image and the constants as they were (R42). -/
theorem runFor_frame {n : Nat} {s : State} {e : Ending} (h : runFor n s = some e) :
    e.state.mem = s.mem ∧ e.state.run = s.run := by
  induction n generalizing s with
  | zero =>
    cases hf : s.isFinal with
    | true => cases (runFor_of_final hf 0).symm.trans h; exact ⟨rfl, rfl⟩
    | false => cases (runFor_zero hf).symm.trans h
  | succ n ih =>
    cases hf : s.isFinal with
    | true => cases (runFor_of_final hf _).symm.trans h; exact ⟨rfl, rfl⟩
    | false =>
      cases hs : step s with
      | next t =>
        obtain ⟨hm, hr⟩ := step_next_frame hs
        rw [← hm, ← hr]
        exact ih ((runFor_of_next hf hs n).symm.trans h)
      | fault f => cases (runFor_of_fault hf hs n).symm.trans h; exact ⟨rfl, rfl⟩
      | refused r => cases (runFor_of_refused hf hs n).symm.trans h; exact ⟨rfl, rfl⟩

/-- Decode reads the image, the constants, the mode and the pc alone. -/
theorem State.fetchInstr_congr {s t : State} (hm : t.mem = s.mem) (hr : t.run = s.run) (hmode : t.mode = s.mode)
    (hpc : t.pc = s.pc) : t.fetchInstr = s.fetchInstr := by
  unfold State.fetchInstr
  rw [hr, hmode, hpc, funext (State.fetchByte_congr hm hr)]

/-- Settles O35: the frame of a step and of a run; fetch and decode read nothing else but the mode and the pc. -/
theorem memoryIsConstantForTheRun : Obligations.MemoryIsConstantForTheRun := by
  refine ⟨fun _ _ => step_next_frame, fun n s e h => ?_⟩
  obtain ⟨hm, hr⟩ := runFor_frame h
  exact ⟨hm, hr, State.fetchByte_congr hm hr, fun m pc => State.fetchInstr_congr hm hr rfl rfl⟩

/-- The state with another image in another byte order, all else the same. -/
def State.relaid (s : State) (m : Memory) (e : Endian) : State :=
  { s with mem := m, run := { s.run with endian := e } }

/-- An outcome with its next state relaid: the reasons of a fault and of a refusal stay. -/
def relaidOutcome (m : Memory) (e : Endian) : Host.Outcome State Fault Refusal → Host.Outcome State Fault Refusal
  | .next t => .next (t.relaid m e)
  | .fault f => .fault f
  | .refused r => .refused r

section
variable (s : State) (m : Memory) (e : Endian)

theorem State.sameState_relaid : s.SameState (s.relaid m e) := ⟨rfl, rfl, rfl, rfl⟩

/-- No meaning of a form reads the image or the byte order. -/
theorem exec_relaid (i : Instr) : exec i (s.relaid m e) = relaidOutcome m e (exec i s) := by
  cases i <;> rfl

/-- What decode rejects ends the step alike in every layout. -/
theorem relaidOutcome_stopOf (r : Reject) : relaidOutcome m e (stopOf r) = stopOf r := by
  cases r <;> rfl

variable {s} in
/-- Whether a state is final does not depend on the layout (R143). -/
theorem sameEnding_relaid_of_final (hf : s.isFinal = true) (n : Nat) :
    sameEnding (runFor n s) (runFor n (s.relaid m e)) := by
  rw [runFor_of_final hf, runFor_of_final (s := s.relaid m e) hf]
  exact s.sameState_relaid m e

variable {s m e} (h : ∀ a, (s.relaid m e).fetchByte a = s.fetchByte a)
include h

/-- Where the layouts give the same bytes, decode gives the same answer. -/
theorem State.fetchInstr_relaid : (s.relaid m e).fetchInstr = s.fetchInstr := by
  unfold State.fetchInstr
  rw [funext h]
  rfl

/-- Where the layouts give the same bytes, a step commutes with the change of layout. -/
theorem step_relaid : step (s.relaid m e) = relaidOutcome m e (step s) := by
  have hfinal : (s.relaid m e).isFinal = s.isFinal := rfl
  have hodd : (s.relaid m e).pcIsOdd = s.pcIsOdd := rfl
  unfold step
  rw [hfinal, hodd, State.fetchInstr_relaid h]
  split
  · rfl
  · split
    · rfl
    · cases s.fetchInstr with
      | error r => exact (relaidOutcome_stopOf m e r).symm
      | ok d => exact exec_relaid s m e d.1

/-- A completed step keeps the agreement of the two layouts, since it changes neither image nor byte order (R42). -/
theorem fetchByte_relaid_of_next {t : State} (hs : step s = .next t) (a : Nat) :
    (t.relaid m e).fetchByte a = t.fetchByte a := by
  obtain ⟨hm, hr⟩ := step_next_frame hs
  have hrelaid : (t.relaid m e).run = (s.relaid m e).run := by simp only [State.relaid, hr]
  rw [State.fetchByte_congr (s := s.relaid m e) (t := t.relaid m e) rfl hrelaid, h, State.fetchByte_congr hm hr]

/-- Where the layouts give the same bytes, runs end alike. -/
theorem sameEnding_relaid (n : Nat) : sameEnding (runFor n s) (runFor n (s.relaid m e)) := by
  induction n generalizing s with
  | zero =>
    cases hf : s.isFinal with
    | true => exact sameEnding_relaid_of_final m e hf 0
    | false =>
      rw [runFor_zero hf, runFor_zero (s := s.relaid m e) hf]
      trivial
  | succ n ih =>
    cases hf : s.isFinal with
    | true => exact sameEnding_relaid_of_final m e hf (n + 1)
    | false =>
      have hstep := step_relaid h
      cases hs : step s with
      | next t =>
        rw [hs] at hstep
        rw [runFor_of_next hf hs, runFor_of_next (s := s.relaid m e) hf hstep]
        exact ih (fetchByte_relaid_of_next h hs)
      | fault f =>
        rw [hs] at hstep
        rw [runFor_of_fault hf hs, runFor_of_fault (s := s.relaid m e) hf hstep]
        exact ⟨rfl, s.sameState_relaid m e⟩
      | refused r =>
        rw [hs] at hstep
        rw [runFor_of_refused hf hs, runFor_of_refused (s := s.relaid m e) hf hstep]
        exact ⟨rfl, s.sameState_relaid m e⟩

end

/-- A stream of whole groups of four at a base aligned to four is fetched alike in every byte order, whatever the
padding byte (R44 to R46). -/
theorem fetchByte_relaid_layout {s : State} {base : Nat} {pad pad' : Byte} {stream : List Byte} {e : Endian}
    (hbase : base % 4 = 0) (hlen : stream.length % 4 = 0)
    (hmem : s.mem = Memory.ofImage base (layoutImage s.run.endian pad stream)) (a : Nat) :
    (s.relaid (Memory.ofImage base (layoutImage e pad' stream)) e).fetchByte a = s.fetchByte a := by
  rw [State.fetchByte_of_layout (imageGroup_dvd_of_mod_four _ hbase) hmem,
    State.fetchByte_of_layout (s := s.relaid _ e) (imageGroup_dvd_of_mod_four e hbase) rfl,
    paddedLength_of_mod_four _ hlen, paddedLength_of_mod_four _ hlen]
  split
  · rfl
  · rw [List.getD_eq_getElem _ _ (by omega), List.getD_eq_getElem _ _ (by omega)]

/-- Settles O50: the two layouts give the same bytes at every address, so a step commutes with the change of layout, and
the runs end alike by induction on their length. -/
theorem byteOrderDoesNotChangeTheRun : Obligations.ByteOrderDoesNotChangeTheRun := by
  rintro s _ pad pad' stream e hbase hlen hmem rfl n
  exact sameEnding_relaid (fetchByte_relaid_layout hbase hlen hmem) n

end Sys2Proof.Machine
end

section
/-! ## What decode reads: no byte after the instruction, and every byte before the one it misses (spec/20_memory.md R47,
R49) -/

namespace Sys2Proof

variable {p : PrefixPo} {cross : Bool} {fetch fetch' : Nat → Except Reject Byte} {pc : Word} {i : Instr} {n : Nat}

/-! ### Each class of the Standard-mode decoder, by its conditions -/

/-- The first word of a `paddi` that may stand where it stands: its suffix decides (R66, R69). -/
theorem decodeWord_of_prefix {w : BitVec 32} (hpo : field w 0 5 = p.value) (hcross : crosses64B cross pc = false)
    (hw : isPaddiPrefix w = true) : decodeWord p cross fetch pc w = decodeSuffix fetch pc w := by
  cases p <;> simp [decodeWord, decodeWord1, decodeWord14, hpo, hcross, hw]

/-- A word with PO = `PREFIX_PO` that would cross faults before its other bits are looked at; under 14 they are looked
at first, since an `addi` has that PO too (R50, R69). -/
theorem decodeWord_of_crosses {w : BitVec 32} (hpo : field w 0 5 = p.value) (hcross : crosses64B cross pc = true)
    (hw : p = .fourteen → isPaddiPrefix w = true) :
    decodeWord p cross fetch pc w = .error (.prefixCrosses64B pc) := by
  cases p with
  | one => simp [decodeWord, decodeWord1, hpo, hcross]
  | fourteen => simp [decodeWord, decodeWord14, hpo, hcross, hw rfl]

/-- An `addi` word, under 14 one that `isPaddiPrefix` leaves to it (R66, R69). -/
theorem decodeWord_of_addi {w : BitVec 32} (hpo : field w 0 5 = poAddi)
    (hw : p = .fourteen → isPaddiPrefix w = false) : decodeWord p cross fetch pc w = .ok (decodeS32 w) := by
  cases p with
  | one => simp [decodeWord, decodeWord1, hpo, poAddi, PrefixPo.value]
  | fourteen => simp [decodeWord, decodeWord14, hpo, poAddi, PrefixPo.value, hw rfl]

/-! ### No byte after the instruction -/

/-- A parcel is its two bytes. -/
theorem fetchParcel_congr {a : Nat} (h₀ : fetch' a = fetch a) (h₁ : fetch' (a + 1) = fetch (a + 1)) :
    fetchParcel fetch' a = fetchParcel fetch a := by
  rw [fetchParcel, fetchParcel, h₀, h₁]

/-- Two streams that agree on the first `n` bytes from the pc give the same parcels there. -/
theorem fetchParcel_of_agree (h : ∀ k, k < n → fetch' (pc.toNat + k) = fetch (pc.toNat + k)) {k : Nat}
    (hk : k + 2 ≤ n) : fetchParcel fetch' (pc.toNat + k) = fetchParcel fetch (pc.toNat + k) :=
  fetchParcel_congr (h k (by omega)) (h (k + 1) (by omega))

/-- The Standard-mode decoder looks at no byte after the instruction it gives. -/
theorem decodeStandard_of_agree (hd : decodeStandard p cross fetch pc = .ok (i, n))
    (h : ∀ k, k < n → fetch' (pc.toNat + k) = fetch (pc.toNat + k)) :
    decodeStandard p cross fetch' pc = .ok (i, n) := by
  obtain ⟨a, ha, ⟨hpo, h16⟩ | ⟨hpo, b, hb, hclass⟩⟩ := decodeStandard_ok hd
  · obtain ⟨-, rfl, -⟩ := decodeH16_ok h16
    rw [decodeStandard_po5 ((fetchParcel_of_agree h (k := 0) (by omega)).trans ha) hpo, h16]
  · have hword (hn : 4 ≤ n) := decodeStandard_word (p := p) (cross := cross)
      ((fetchParcel_of_agree h (k := 0) (by omega)).trans ha)
      ((fetchParcel_of_agree h (k := 2) (by omega)).trans hb) hpo
    rw [← field_po_append a b] at hword
    obtain ⟨hpo, h48⟩ | ⟨hne, hpo, hcross, hw, h64⟩ | ⟨hpo, hw, h32⟩ := hclass
    · obtain ⟨-, c, -, rfl, -⟩ := decodeX48_ok h48
      rw [hword (by omega), if_pos hpo, ← h48, decodeX48, decodeX48, fetchParcel_of_agree h (k := 4) (by omega)]
    · obtain ⟨c, d, -, -, -, rfl, -⟩ := decodeSuffix_ok h64
      rw [hword (by omega), if_neg hne, decodeWord_of_prefix hpo hcross hw, ← h64, decodeSuffix, decodeSuffix,
        fetchParcel_of_agree h (k := 4) (by omega), fetchParcel_of_agree h (k := 6) (by omega)]
    · cases h32
      rw [hword (by omega), if_neg (by rw [hpo]; decide), decodeWord_of_addi hpo hw]
      rfl

/-- Settles O15: the parcels of the instruction decide every branch of both decoders. -/
theorem decodeReadsOnlyItsBytes : Obligations.DecodeReadsOnlyItsBytes := by
  intro p cross m fetch fetch' pc i n hd h
  cases m with
  | standard => exact decodeStandard_of_agree hd h
  | compressed =>
    obtain ⟨a, ha, hc⟩ := decodeAt_compressed_ok hd
    obtain ⟨-, -, rfl, -⟩ := decodeCompressed_ok hc
    have hfirst : fetchParcel fetch' pc.toNat = fetchParcel fetch pc.toNat :=
      fetchParcel_of_agree h (k := 0) (by omega)
    rw [← hd, decodeAt, decodeAt, hfirst]

/-! ### The first missing byte -/

/-- The stream has its first `n` bytes from `a` on. -/
def Present (fetch : Nat → Except Reject Byte) (a n : Nat) : Prop := ∀ k, k < n → ∃ b, fetch (a + k) = .ok b

/-- Fetch rejects one of the eight bytes from `a` on with `r`, and the stream has every byte before it. -/
def FirstMissing (fetch : Nat → Except Reject Byte) (a : Nat) (r : Reject) : Prop :=
  ∃ k, k < 8 ∧ fetch (a + k) = .error r ∧ Present fetch a k

theorem present_zero (a : Nat) : Present fetch a 0 := nofun

/-- One more byte. -/
theorem Present.succ {a : Nat} {b : Byte} (h : Present fetch a n) (hb : fetch (a + n) = .ok b) :
    Present fetch a (n + 1) := by
  intro k hk
  rcases Nat.lt_succ_iff_lt_or_eq.mp hk with hk | rfl
  · exact h k hk
  · exact ⟨b, hb⟩

/-- One more parcel. -/
theorem Present.parcel {a : Nat} {c : Parcel} (h : Present fetch a n) (hc : fetchParcel fetch (a + n) = .ok c) :
    Present fetch a (n + 2) := by
  obtain ⟨hi, lo, hhi, hlo, -⟩ := fetchParcel_ok.mp hc
  exact (h.succ hhi).succ hlo

/-- A parcel that is not there has the first missing byte. -/
theorem Present.firstMissing {a : Nat} {r : Reject} (h : Present fetch a n) (hn : n + 2 ≤ 8)
    (hr : fetchParcel fetch (a + n) = .error r) : FirstMissing fetch a r := by
  rcases fetchParcel_error.mp hr with hr | ⟨⟨hi, hhi⟩, hr⟩
  · exact ⟨n, by omega, hr, h⟩
  · exact ⟨n + 1, by omega, hr, h.succ hhi⟩

/-- Why decode can reject: a missing byte, the 64-byte check in Standard mode, or what the bits are. -/
inductive DecodeStops (cross : Bool) (m : Mode) (fetch : Nat → Except Reject Byte) (pc : Word) : Reject → Prop where
  | missing {r : Reject} (h : FirstMissing fetch pc.toNat r) : DecodeStops cross m fetch pc r
  | crosses (hm : m = .standard) (h : crosses64B cross pc = true) :
      DecodeStops cross m fetch pc (.prefixCrosses64B pc)
  | illegal (h : Parcel) : DecodeStops cross m fetch pc (.illegalEncoding pc h)
  | outOfScope (bits : FetchedBits) : DecodeStops cross m fetch pc (.outOfScope pc bits)

/-- Rejections by `decodeSuffix`, once the first four bytes are there (R63, R66). -/
theorem decodeSuffix_stops {m : Mode} {w : BitVec 32} {r : Reject} (hp : Present fetch pc.toNat 4)
    (hd : decodeSuffix fetch pc w = .error r) : DecodeStops cross m fetch pc r := by
  obtain hc | ⟨c, hc, hd | ⟨d, -, -, rfl⟩⟩ := decodeSuffix_error hd
  · exact .missing (hp.firstMissing (by omega) hc)
  · exact .missing ((hp.parcel hc).firstMissing (by omega) hd)
  · exact .outOfScope _

/-- Rejections by the Standard-mode decoder (R66, R69). -/
theorem decodeStandard_stops {r : Reject} (hd : decodeStandard p cross fetch pc = .error r) :
    DecodeStops cross .standard fetch pc r := by
  have h₀ : Present fetch pc.toNat 0 := present_zero _
  obtain ha | ⟨a, ha, ⟨-, -, rfl⟩ | ⟨-, hb | ⟨b, hb, ⟨-, -, rfl⟩ | ⟨-, -, hc⟩ | ⟨-, hw⟩⟩⟩⟩ := decodeStandard_error hd
  · exact .missing (h₀.firstMissing (by omega) ha)
  · exact .illegal a
  · exact .missing ((h₀.parcel ha).firstMissing (by omega) hb)
  · exact .outOfScope _
  · exact .missing (((h₀.parcel ha).parcel hb).firstMissing (by omega) hc)
  · obtain ⟨-, hcross, -, rfl⟩ | ⟨-, -, -, -, rfl⟩ | ⟨-, -, -, hs⟩ | ⟨-, -, rfl⟩ := decodeWord_error hw
    · exact .crosses rfl hcross
    · exact .outOfScope _
    · exact decodeSuffix_stops ((h₀.parcel ha).parcel hb) hs
    · exact .outOfScope _

/-- Decode in Compressed mode rejects for its one parcel (R74, R75). -/
theorem decodeAt_compressed_error {r : Reject} (hd : decodeAt p cross .compressed fetch pc = .error r) :
    fetchParcel fetch pc.toNat = .error r ∨
      ∃ h, fetchParcel fetch pc.toNat = .ok h ∧ decodeCompressed pc h = .error r := by
  simp only [decodeAt] at hd
  cases hp : fetchParcel fetch pc.toNat with
  | error q => rw [hp] at hd; cases hd; exact .inl rfl
  | ok h => rw [hp] at hd; exact .inr ⟨h, rfl, hd⟩

/-- Every rejection by decode, in either mode, is for one of these reasons. -/
theorem decodeAt_stops {m : Mode} {r : Reject} (hd : decodeAt p cross m fetch pc = .error r) :
    DecodeStops cross m fetch pc r := by
  cases m with
  | standard => exact decodeStandard_stops hd
  | compressed =>
    obtain hp | ⟨h, -, hc⟩ := decodeAt_compressed_error hd
    · exact .missing ((present_zero _).firstMissing (n := 0) (by omega) hp)
    · obtain ⟨rfl, -⟩ := decodeCompressed_error hc
      exact .illegal h

end Sys2Proof
end

section
/-! ## How a step faults, and the even pc (spec/20_memory.md R48 to R50; spec/60_exceptions.md R122) -/

namespace Sys2Proof.Machine

/-- Fetching a byte is rejected only as outside the image, with its own address (R44, R49). -/
theorem State.fetchByte_error {s : State} {a : Nat} {r : Reject} (h : s.fetchByte a = .error r) :
    r = .fetchOutsideImage a := by
  unfold State.fetchByte at h
  split at h
  · cases h
  · exact (Except.error.inj h).symm

/-- No form faults in execution (spec/60_exceptions.md R122). -/
theorem exec_ne_fault (i : Instr) (s : State) (f : Fault) : exec i s ≠ .fault f := by
  cases i <;> exact nofun

/-- A step that faults: the pc is odd, or the state is live and decode rejected. -/
theorem step_fault {s : State} {f : Fault} (h : step s = .fault f) :
    (s.isFinal = false ∧ s.pcIsOdd = true ∧ f = .fetchMisaligned s.pc) ∨
    (s.Live ∧ ∃ r, s.fetchInstr = .error r ∧ stopOf r = .fault f) := by
  cases hf : s.isFinal with
  | true => cases (step_of_final hf).symm.trans h
  | false =>
    cases ho : s.pcIsOdd with
    | true => cases (step_of_odd hf ho).symm.trans h; exact .inl ⟨rfl, rfl, rfl⟩
    | false =>
      rw [step_of_live ⟨hf, ho⟩] at h
      split at h
      · next r hr => exact .inr ⟨⟨hf, ho⟩, r, hr, h⟩
      · exact absurd h (exec_ne_fault _ s f)

/-- A step that faults at an even pc was stopped by decode. -/
theorem step_fault_stops {s : State} {f : Fault} (h : step s = .fault f) (hf : f ≠ .fetchMisaligned s.pc) :
    s.Live ∧ ∃ r, stopOf r = .fault f ∧
      DecodeStops s.run.prefixCross64bFaults s.mode s.fetchByte s.pc r := by
  obtain ⟨-, -, rfl⟩ | ⟨hl, r, hr, hstop⟩ := step_fault h
  · exact absurd rfl hf
  · exact ⟨hl, r, hstop, decodeAt_stops hr⟩

/-- Settles O38: of the ways decode stops only a missing byte gives this fault, and its address is that byte's. -/
theorem fetchFaultNamesFirstMissingByte : Obligations.FetchFaultNamesFirstMissingByte := by
  intro s a h
  obtain ⟨-, r, hstop, hr⟩ := step_fault_stops h nofun
  cases hr with
  | missing hmiss =>
    obtain ⟨k, hk, hbyte, hpresent⟩ := hmiss
    obtain rfl := State.fetchByte_error hbyte
    cases hstop
    refine ⟨by omega, by omega, hbyte, fun b hb hlt => ?_⟩
    obtain ⟨j, rfl⟩ := Nat.exists_eq_add_of_le hb
    exact hpresent j (by omega)
  | crosses _ _ => cases hstop
  | illegal _ => cases hstop
  | outOfScope _ => cases hstop

/-- An even pc, as a number. -/
theorem State.pc_mod_two {s : State} (h : s.pcIsOdd = false) : s.pc.toNat % 2 = 0 := by
  have : s.pc.toNat % 2 ≠ 1 := by simpa [State.pcIsOdd] using h
  omega

/-- The 64-byte check at an even pc asks for 58, 60 or 62 modulo 64 (R50). -/
theorem crosses64B_iff_of_even {cross : Bool} {pc : Word} (h : pc.toNat % 2 = 0) :
    crosses64B cross pc = true ↔
      cross = true ∧ (pc.toNat % 64 = 58 ∨ pc.toNat % 64 = 60 ∨ pc.toNat % 64 = 62) := by
  simp only [crosses64B, Bool.and_eq_true, decide_eq_true_eq]
  refine and_congr_right fun _ => ?_
  omega

/-- `PREFIX_PO` is the PO of neither the 16-bit nor the 48-bit class (R6, R64, R65). -/
theorem PrefixPo.value_ne (p : PrefixPo) : p.value ≠ poH16 ∧ p.value ≠ poX48 := by
  cases p <;> decide

/-- Settles O39: a word with PO = `PREFIX_PO` meets the check before its other conditions, and of the ways decode stops
only the check gives this fault. -/
theorem prefixMayNotCross64Bytes : Obligations.PrefixMayNotCross64Bytes := by
  refine ⟨fun s a b hl hm hcross ha hb hpo hw hpc => ?_, fun s q h => ?_⟩
  · obtain ⟨hne16, hne48⟩ := PrefixPo.value_ne s.run.prefixPo
    have hprefix : s.run.prefixPo = .fourteen → isPaddiPrefix (a ++ b) = true := fun hp => by
      obtain ⟨h₁, h₂, h₃⟩ := hw hp
      rw [← field_high_append a b (by omega)] at h₁ h₂ h₃
      simp [isPaddiPrefix, h₁, h₂, h₃]
    have hword := decodeWord_of_crosses (fetch := s.fetchByte) ((field_po_append a b).trans hpo)
      ((crosses64B_iff_of_even (State.pc_mod_two hl.2)).mpr ⟨hcross, hpc⟩) hprefix
    have hdecode : s.fetchInstr = .error (.prefixCrosses64B s.pc) := by
      rw [State.fetchInstr, hm, decodeAt, decodeStandard_word ha hb (hpo ▸ hne16), if_neg (hpo ▸ hne48), hword]
    rw [step_of_live hl, hdecode]
    rfl
  · obtain ⟨hl, r, hstop, hr⟩ := step_fault_stops h nofun
    cases hr with
    | missing hmiss =>
      obtain ⟨k, -, hbyte, -⟩ := hmiss
      obtain rfl := State.fetchByte_error hbyte
      cases hstop
    | crosses hm hcross =>
      cases hstop
      exact ⟨rfl, hm, (crosses64B_iff_of_even (State.pc_mod_two hl.2)).mp hcross⟩
    | illegal _ => cases hstop
    | outOfScope _ => cases hstop

/-- Settles O40: R34 step 1, and the pc's advance by an even width, which a sum modulo 2^64 keeps even. -/
theorem pcStaysEven : Obligations.PcStaysEven := by
  refine ⟨fun s hf ho => step_of_odd hf (by simpa [State.pcIsOdd] using ho), fun s t h => ?_⟩
  obtain ⟨⟨-, heven⟩, i, n, -, -, -, he⟩ := step_next h
  have hs := State.pc_mod_two heven
  obtain ⟨hpc, -, -, -, -, hw⟩ := exec_completes he
  refine ⟨hs, ?_⟩
  rw [hpc, BitVec.toNat_add, BitVec.toNat_ofNat]
  omega

end Sys2Proof.Machine
end

section
/-! ## Streams that hold bytes, and the parcels and words in them (spec/20_memory.md R43, R47) -/

namespace Sys2Proof

variable {fetch : Nat → Except Reject Byte} {a : Nat}

/-- The stream holds these bytes from address `a` on. -/
def HoldsAt (fetch : Nat → Except Reject Byte) (a : Nat) (bytes : List Byte) : Prop :=
  ∀ k b, bytes[k]? = some b → fetch (a + k) = .ok b

theorem holdsAt_append {xs ys : List Byte} :
    HoldsAt fetch a (xs ++ ys) ↔ HoldsAt fetch a xs ∧ HoldsAt fetch (a + xs.length) ys := by
  constructor
  · intro h
    refine ⟨fun k b hk => h k b ?_, fun k b hk => ?_⟩
    · obtain ⟨hlt, -⟩ := List.getElem?_eq_some_iff.mp hk
      rw [List.getElem?_append_left hlt, hk]
    · rw [Nat.add_assoc]
      refine h _ b ?_
      rw [List.getElem?_append_right (Nat.le_add_right _ _), Nat.add_sub_cancel_left, hk]
  · rintro ⟨hx, hy⟩ k b hk
    by_cases hlt : k < xs.length
    · rw [List.getElem?_append_left hlt] at hk
      exact hx k b hk
    · obtain ⟨j, rfl⟩ := Nat.exists_eq_add_of_le (Nat.le_of_not_lt hlt)
      rw [List.getElem?_append_right (Nat.le_add_right _ _), Nat.add_sub_cancel_left] at hk
      rw [← Nat.add_assoc]
      exact hy j b hk

/-- A stream that is a list of bytes holds the list's first part at its start. -/
theorem holdsAt_fetchFrom (xs ys : List Byte) : HoldsAt (fetchFrom (xs ++ ys)) 0 xs := by
  intro k b hk
  obtain ⟨hlt, -⟩ := List.getElem?_eq_some_iff.mp hk
  rw [fetchFrom, Nat.zero_add, List.getElem?_append_left hlt, hk]

/-- The bytes of a value are those of its high part, then those of its low part. -/
theorem bytesOf_split (m n : Nat) (v : BitVec (8 * (m + n))) :
    bytesOf (m + n) v = bytesOf m (v.extractLsb' (8 * n) (8 * m)) ++ bytesOf n (v.extractLsb' 0 (8 * n)) := by
  refine List.ext_getElem (by simp) fun k h₁ h₂ => ?_
  have hk : k < m + n := by simpa using h₁
  refine BitVec.eq_of_getLsbD_eq fun i hi => ?_
  by_cases hm : k < m
  · rw [List.getElem_append_left (by simpa using hm)]
    simp only [bytesOf, List.getElem_map, List.getElem_range, BitVec.getLsbD_extractLsb']
    rw [show 8 * n + (8 * (m - 1 - k) + i) = 8 * (m + n - 1 - k) + i by omega]
    simp [hi, show 8 * (m - 1 - k) + i < 8 * m by omega]
  · rw [List.getElem_append_right (by simpa using hm)]
    simp only [bytesOf, List.getElem_map, List.getElem_range, BitVec.getLsbD_extractLsb', List.length_map,
      List.length_range, Nat.zero_add]
    rw [show n - 1 - (k - m) = m + n - 1 - k by omega]
    simp [hi, show 8 * (m + n - 1 - k) + i < 8 * n by omega]

/-- A parcel is held exactly where it is fetched. -/
theorem holdsAt_parcel {h : Parcel} : HoldsAt fetch a (bytesOf 2 h) ↔ fetchParcel fetch a = .ok h := by
  have hjoin : (h.extractLsb' 8 8 ++ h.extractLsb' 0 8 : BitVec 16) = h := BitVec.extractLsb'_append_extractLsb'
  rw [fetchParcel_ok]
  constructor
  · exact fun hh => ⟨_, _, hh 0 _ rfl, hh 1 _ rfl, hjoin.symm⟩
  · rintro ⟨hi, lo, hhi, hlo, rfl⟩ k b hk
    match k with
    | 0 =>
      cases hk
      exact hhi.trans (congrArg Except.ok (BitVec.extractLsb'_append_eq_left (a := hi) (b := lo)).symm)
    | 1 =>
      cases hk
      exact hlo.trans (congrArg Except.ok (BitVec.extractLsb'_append_eq_right (a := hi) (b := lo)).symm)
    | k + 2 => cases hk

/-- A word is its two parcels. -/
theorem holdsAt_word {w : BitVec 32} :
    HoldsAt fetch a (bytesOf 4 w) ↔
      fetchParcel fetch a = .ok (w.extractLsb' 16 16) ∧ fetchParcel fetch (a + 2) = .ok (w.extractLsb' 0 16) := by
  rw [← holdsAt_parcel, ← holdsAt_parcel, bytesOf_split 2 2 w, holdsAt_append, length_bytesOf]

/-- The word of two parcels fetched one after the other. -/
theorem holdsAt_word_append {x y : Parcel} :
    HoldsAt fetch a (bytesOf 4 (x ++ y : BitVec 32)) ↔
      fetchParcel fetch a = .ok x ∧ fetchParcel fetch (a + 2) = .ok y := by
  rw [holdsAt_word, BitVec.extractLsb'_append_eq_left, BitVec.extractLsb'_append_eq_right]

/-- A 48-bit value is a word and a parcel. -/
theorem holdsAt_word_parcel {w : BitVec 32} {c : Parcel} :
    HoldsAt fetch a (bytesOf 6 (w ++ c : BitVec 48)) ↔
      HoldsAt fetch a (bytesOf 4 w) ∧ fetchParcel fetch (a + 4) = .ok c := by
  rw [← holdsAt_parcel, bytesOf_split 4 2, holdsAt_append, length_bytesOf, BitVec.extractLsb'_append_eq_left,
    BitVec.extractLsb'_append_eq_right]

/-- A stream holds one value of a given length only at one place. -/
theorem holdsAt_bytesOf_unique {n : Nat} {v w : BitVec (8 * n)} (hv : HoldsAt fetch a (bytesOf n v)) :
    HoldsAt fetch a (bytesOf n w) ↔ v = w := by
  refine ⟨fun hw => BitVec.eq_of_getLsbD_eq fun i hi => ?_, fun h => h ▸ hv⟩
  have hk : n - 1 - i / 8 < n := by omega
  have hplace : 8 * (n - 1 - (n - 1 - i / 8)) + i % 8 = i := by omega
  have hlt : i % 8 < 8 := Nat.mod_lt i (by omega)
  have hbyte := Except.ok.inj ((hv _ _ (getElem?_bytesOf v hk)).symm.trans (hw _ _ (getElem?_bytesOf w hk)))
  have hbit := congrArg (fun b => b.getLsbD (i % 8)) hbyte
  simpa only [BitVec.getLsbD_extractLsb', hplace, hlt, decide_true, Bool.true_and] using hbit

end Sys2Proof
end

section
/-! ## The masks of the encoding table, field by field (spec/30_encoding.md R71, R82) -/

namespace Sys2Proof

/-- A concatenation determines its parts. -/
theorem append_eq_append_iff {m n : Nat} {x x' : BitVec m} {y y' : BitVec n} :
    x ++ y = x' ++ y' ↔ x = x' ∧ y = y' := by
  refine ⟨fun h => ⟨?_, ?_⟩, fun ⟨hx, hy⟩ => hx ▸ hy ▸ rfl⟩
  · rw [← BitVec.extractLsb'_append_eq_left (a := x) (b := y), h, BitVec.extractLsb'_append_eq_left]
  · rw [← BitVec.extractLsb'_append_eq_right (a := x) (b := y), h, BitVec.extractLsb'_append_eq_right]

/-- A masked concatenation, part by part. -/
theorem append_and_eq_iff {m n : Nat} {x mx vx : BitVec m} {y my vy : BitVec n} :
    (x ++ y) &&& (mx ++ my) = vx ++ vy ↔ x &&& mx = vx ∧ y &&& my = vy := by
  rw [BitVec.and_append, append_eq_append_iff]

/-- Format H16 as its fields (R64). -/
theorem parcel_eq_h16_fields (h : Parcel) :
    h = field h 0 5 ++ field h 6 8 ++ field h 9 14 ++ field h 15 15 := BitVec.eq_of_toNat_eq (by
  refine Eq.trans ?_ (toNat_cat _ _).symm
  rw [toNat_cat, toNat_cat]
  simp only [field_toNat]
  omega)

/-- Format C16 as its fields (R67). -/
theorem parcel_eq_c16_fields (h : Parcel) :
    h = field h 0 0 ++ field h 1 5 ++ field h 6 8 ++ field h 9 14 ++ field h 15 15 := BitVec.eq_of_toNat_eq (by
  refine Eq.trans ?_ (toNat_cat _ _).symm
  rw [toNat_cat, toNat_cat, toNat_cat]
  simp only [field_toNat]
  omega)

/-- The first word of format P64 as its fields, the `//` bits 9:10 and 12:13 among them (R63, R71). -/
theorem word_eq_prefix_fields (w : BitVec 32) :
    w = field w 0 5 ++ field w 6 7 ++ field w 8 8 ++ field w 9 10 ++ field w 11 11 ++ field w 12 13 ++
      field w 14 31 := BitVec.eq_of_toNat_eq (by
  refine Eq.trans ?_ (toNat_cat _ _).symm
  rw [toNat_cat, toNat_cat, toNat_cat, toNat_cat, toNat_cat]
  simp only [field_toNat]
  omega)

/-- The mask of the 16-bit forms on format H16: PO, SO and SCM. -/
theorem h16_mask_iff (h : Parcel) (c : BitVec 1) :
    h &&& 0xFF81#16 = poH16 ++ 0#3 ++ 0#6 ++ c ↔ field h 0 5 = poH16 ∧ field h 6 8 = 0#3 ∧ field h 15 15 = c := by
  have hmask : 0xFF81#16 = BitVec.allOnes 6 ++ BitVec.allOnes 3 ++ 0#6 ++ BitVec.allOnes 1 := by decide
  conv => lhs; lhs; rw [parcel_eq_h16_fields h, hmask]
  iterate 3 rw [append_and_eq_iff]
  simp only [BitVec.and_allOnes, BitVec.and_zero, and_true, and_assoc]

/-- The same mask on format C16: SCMT, SOH, SO and SCM. -/
theorem c16_mask_iff (h : Parcel) (m c : BitVec 1) :
    h &&& 0xFF81#16 = m ++ sohAdd ++ 0#3 ++ 0#6 ++ c ↔
      field h 0 0 = m ∧ field h 1 5 = sohAdd ∧ field h 6 8 = 0#3 ∧ field h 15 15 = c := by
  have hmask : 0xFF81#16 = BitVec.allOnes 1 ++ BitVec.allOnes 5 ++ BitVec.allOnes 3 ++ 0#6 ++ BitVec.allOnes 1 := by
    decide
  conv => lhs; lhs; rw [parcel_eq_c16_fields h, hmask]
  iterate 4 rw [append_and_eq_iff]
  simp only [BitVec.and_allOnes, BitVec.and_zero, and_true, and_assoc]

/-- The mask of a 32-bit PO. -/
theorem po_mask_iff (w : BitVec 32) (po : BitVec 6) :
    w &&& 0xFC000000#32 = po ++ 0#26 ↔ field w 0 5 = po := by
  have hmask : 0xFC000000#32 = BitVec.allOnes 6 ++ 0#26 := by decide
  have hw : w = field w 0 5 ++ w.extractLsb' 0 26 :=
    (BitVec.extractLsb'_append_extractLsb' (w := 6) (len := 26) (x := w)).symm
  conv => lhs; lhs; rw [hw, hmask]
  rw [append_and_eq_iff, BitVec.and_allOnes, BitVec.and_zero, eq_self, and_true]

/-- Format X48 as its fields (R65). -/
theorem eq_x48_fields (v : BitVec 48) :
    v = field v 0 5 ++ field v 6 20 ++ field v 21 30 ++ field v 31 47 := BitVec.eq_of_toNat_eq (by
  refine Eq.trans ?_ (toNat_cat _ _).symm
  rw [toNat_cat, toNat_cat]
  simp only [field_toNat]
  omega)

/-- The mask of the PO of format X48. -/
theorem x48_po_mask_iff (v : BitVec 48) : v &&& 0xFC0000000000#48 = 0#48 ↔ field v 0 5 = poX48 := by
  have hmask : 0xFC0000000000#48 = BitVec.allOnes 6 ++ 0#15 ++ 0#10 ++ 0#17 := by decide
  have hmatch : 0#48 = poX48 ++ 0#15 ++ 0#10 ++ 0#17 := by decide
  conv => lhs; rw [eq_x48_fields v, hmask, hmatch]
  iterate 3 rw [append_and_eq_iff]
  simp only [BitVec.and_allOnes, BitVec.and_zero, and_true]

/-- The mask of the XO of format X48. -/
theorem x48_xo_mask_iff (v : BitVec 48) :
    v &&& 0x000007FE0000#48 = 0x000002000000#48 ↔ field v 21 30 = reservedXo := by
  have hmask : 0x000007FE0000#48 = 0#6 ++ 0#15 ++ BitVec.allOnes 10 ++ 0#17 := by decide
  have hmatch : 0x000002000000#48 = 0#6 ++ 0#15 ++ reservedXo ++ 0#17 := by decide
  conv => lhs; rw [eq_x48_fields v, hmask, hmatch]
  iterate 3 rw [append_and_eq_iff]
  simp only [BitVec.and_allOnes, BitVec.and_zero, and_true, true_and]

/-- The bits that R66 asks of the first word of a `paddi` after its PO. -/
theorem isPaddiPrefix_iff (w : BitVec 32) :
    isPaddiPrefix w = true ↔ field w 6 7 = 2#2 ∧ field w 8 8 = 0#1 ∧ field w 11 11 = 0#1 := by
  simp only [isPaddiPrefix, Bool.and_eq_true, decide_eq_true_eq, and_assoc]
  exact Iff.rfl

/-- The mask of the first word of a `paddi`: PO, bits 6:7, bit 8 and R. -/
theorem prefix_mask_iff (w : BitVec 32) (p : PrefixPo) :
    w &&& 0xFF900000#32 = wordP64 p 0#18 ↔ field w 0 5 = p.value ∧ isPaddiPrefix w = true := by
  have hmask : 0xFF900000#32 =
      BitVec.allOnes 6 ++ BitVec.allOnes 2 ++ BitVec.allOnes 1 ++ 0#2 ++ BitVec.allOnes 1 ++ 0#2 ++ 0#18 := by decide
  conv => lhs; lhs; rw [word_eq_prefix_fields w, hmask]
  unfold wordP64
  iterate 6 rw [append_and_eq_iff]
  simp only [BitVec.and_allOnes, BitVec.and_zero, and_true, and_assoc, isPaddiPrefix_iff]

/-- All the bits of the first word of a `paddi` but the four `//` bits (R71). -/
def prefixBits : BitVec 32 := 0xFF93FFFF#32

/-- A word is the first of a `paddi` with given si0 exactly when without its `//` bits it is the encoder's. -/
theorem and_prefixBits_iff (w : BitVec 32) (p : PrefixPo) (si0 : BitVec 18) :
    w &&& prefixBits = wordP64 p si0 ↔
      field w 0 5 = p.value ∧ isPaddiPrefix w = true ∧ field w 14 31 = si0 := by
  have hmask : prefixBits = BitVec.allOnes 6 ++ BitVec.allOnes 2 ++ BitVec.allOnes 1 ++ 0#2 ++ BitVec.allOnes 1 ++
      0#2 ++ BitVec.allOnes 18 := by decide
  conv => lhs; lhs; rw [word_eq_prefix_fields w, hmask]
  unfold wordP64
  iterate 6 rw [append_and_eq_iff]
  simp only [BitVec.and_allOnes, BitVec.and_zero, and_true, and_assoc, isPaddiPrefix_iff]

/-- The encoder sets no `//` bit. -/
theorem wordP64_and_prefixBits (p : PrefixPo) (si0 : BitVec 18) : wordP64 p si0 &&& prefixBits = wordP64 p si0 :=
  (and_prefixBits_iff _ p si0).mpr ⟨wordP64_po p si0, wordP64_isPaddiPrefix p si0, wordP64_si0 p si0⟩

/-- A parcel is a word of format H16 exactly on its match and mask, with its codes in their places. -/
theorem eq_wordH16_iff (h : Parcel) (t s : SmallCode) (c : BitVec 1) :
    h = wordH16 t s c ↔ h &&& 0xFF81#16 = poH16 ++ 0#3 ++ 0#6 ++ c ∧ field h 9 11 = t ∧ field h 12 14 = s := by
  rw [h16_mask_iff]
  constructor
  · rintro rfl
    exact ⟨⟨wordH16_po t s c, wordH16_so t s c, wordH16_scm t s c⟩, wordH16_srt t s c, wordH16_srs t s c⟩
  · rintro ⟨⟨hpo, hso, rfl⟩, rfl, rfl⟩
    exact (wordH16_of_fields h hpo hso).symm

/-- The same of format S32. -/
theorem eq_wordS32_iff (w : BitVec 32) (rt ra : RegNum) (si : BitVec 16) :
    w = wordS32 rt ra si ↔
      w &&& 0xFC000000#32 = 0x38000000#32 ∧ field w 6 10 = rt ∧ field w 11 15 = ra ∧ field w 16 31 = si := by
  rw [show 0x38000000#32 = poAddi ++ 0#26 by decide, po_mask_iff]
  constructor
  · rintro rfl
    exact ⟨wordS32_po rt ra si, wordS32_rt rt ra si, wordS32_ra rt ra si, wordS32_si rt ra si⟩
  · rintro ⟨hpo, rfl, rfl, rfl⟩
    exact (wordS32_of_fields w hpo).symm

end Sys2Proof
end

section
/-! ## Decode and encode: each form decodes exactly where its encoding stands (spec/30_encoding.md R66, R69,
R74, R82) -/

namespace Sys2Proof

variable {p : PrefixPo} {cross : Bool} {fetch : Nat → Except Reject Byte} {pc : Word} {i : Instr} {n : Nat}

/-! ### The decoders over words in place -/

/-- A word is the concatenation of its parcels. -/
theorem word_eq_append (w : BitVec 32) : (w.extractLsb' 16 16 ++ w.extractLsb' 0 16 : BitVec 32) = w :=
  BitVec.extractLsb'_append_extractLsb'

/-- The Standard-mode decoder on a first word that is not of the 16-bit class (R66, R69). -/
theorem decodeStandard_of_word {w : BitVec 32} (h : HoldsAt fetch pc.toNat (bytesOf 4 w))
    (hpo : field w 0 5 ≠ poH16) :
    decodeStandard p cross fetch pc =
      if field w 0 5 = poX48 then decodeX48 fetch pc w else decodeWord p cross fetch pc w := by
  obtain ⟨ha, hb⟩ := holdsAt_word.mp h
  have hfirst := field_po_append (w.extractLsb' 16 16) (w.extractLsb' 0 16)
  rw [word_eq_append] at hfirst
  rw [decodeStandard_word ha hb (hfirst ▸ hpo), ← hfirst, word_eq_append]

/-- The suffix decoder on a suffix in place (R63, R66). -/
theorem decodeSuffix_of_word {w s : BitVec 32} (h : HoldsAt fetch (pc.toNat + 4) (bytesOf 4 s)) :
    decodeSuffix fetch pc w =
      if field s 0 5 ≠ poAddi then .error (.outOfScope pc (.pair (w ++ s)))
      else .ok (.paddi (field s 6 10) (field s 11 15) (field w 14 31) (field s 16 31), 8) := by
  obtain ⟨hc, hd⟩ := holdsAt_word.mp h
  unfold decodeSuffix
  rw [hc, hd]
  simp only [bind, Except.bind, word_eq_append]

/-- The 48-bit class on a third parcel in place (R65, R66). -/
theorem decodeX48_of_parcel {w : BitVec 32} {c : Parcel} (h : fetchParcel fetch (pc.toNat + 4) = .ok c)
    (hxo : field w 21 30 ≠ reservedXo) :
    decodeX48 fetch pc w =
      .ok (.xPlaceholder (field (w ++ c : BitVec 48) 6 20) (field (w ++ c : BitVec 48) 21 30)
        (field (w ++ c : BitVec 48) 31 47), 6) := by
  rw [decodeX48, if_neg hxo, h]
  rfl

/-- The first word of a `paddi` that may stand where it stands: its suffix decides (R66, R69). -/
theorem decodeStandard_of_prefix {w : BitVec 32} (h : HoldsAt fetch pc.toNat (bytesOf 4 w))
    (hpo : field w 0 5 = p.value) (hcross : crosses64B cross pc = false) (hw : isPaddiPrefix w = true) :
    decodeStandard p cross fetch pc = decodeSuffix fetch pc w := by
  obtain ⟨hne16, hne48⟩ : p.value ≠ poH16 ∧ p.value ≠ poX48 := Machine.PrefixPo.value_ne p
  rw [decodeStandard_of_word h (hpo ▸ hne16), if_neg (hpo ▸ hne48), decodeWord_of_prefix hpo hcross hw]

/-- An `addi` word (R66, R69). -/
theorem decodeStandard_of_addi {w : BitVec 32} (h : HoldsAt fetch pc.toNat (bytesOf 4 w))
    (hpo : field w 0 5 = poAddi) (hw : p = .fourteen → isPaddiPrefix w = false) :
    decodeStandard p cross fetch pc = .ok (decodeS32 w) := by
  rw [decodeStandard_of_word h (by rw [hpo]; decide), if_neg (by rw [hpo]; decide), decodeWord_of_addi hpo hw]

/-- Fields of the first word of a 48-bit value. -/
theorem field_word_append (w : BitVec 32) (c : Parcel) {j k : Nat} (hk : k < 32) :
    field (w ++ c : BitVec 48) j k = field w j k := by
  have hplace : 48 - 1 - k - 16 = 32 - 1 - k := by omega
  unfold field
  rw [BitVec.extractLsb'_append_eq_of_le (by omega), hplace]

/-! ### `paddi` -/

/-- A `paddi` decodes exactly where the encoder's first word, with any `//` bits, and its suffix stand, and the 64-byte
check lets them (R50, R63, R71). -/
theorem decodeStandard_paddi_iff {rt ra : RegNum} {si0 : BitVec 18} {si1 : BitVec 16} :
    decodeStandard p cross fetch pc = .ok (.paddi rt ra si0 si1, 8) ↔
      crosses64B cross pc = false ∧
        ∃ w, HoldsAt fetch pc.toNat (bytesOf 4 w) ∧ w &&& prefixBits = wordP64 p si0 ∧
          HoldsAt fetch (pc.toNat + 4) (bytesOf 4 (wordS32 rt ra si1)) := by
  constructor
  · intro h
    obtain ⟨a, ha, ⟨-, h⟩ | ⟨-, b, hb, ⟨-, h⟩ | ⟨-, hpo, hcross, hw, h⟩ | ⟨-, -, h⟩⟩⟩ := decodeStandard_ok h
    · obtain ⟨-, h, -⟩ := decodeH16_ok h
      cases h
    · obtain ⟨-, -, -, h, -⟩ := decodeX48_ok h
      cases h
    · obtain ⟨c, d, hc, hd, hs, -, hi⟩ := decodeSuffix_ok h
      cases hi
      refine ⟨hcross, a ++ b, holdsAt_word_append.mpr ⟨ha, hb⟩, (and_prefixBits_iff _ _ _).mpr ⟨hpo, hw, rfl⟩, ?_⟩
      rw [wordS32_of_fields _ hs]
      exact holdsAt_word_append.mpr ⟨hc, hd⟩
    · cases h
  · rintro ⟨hcross, w, hfirst, hmask, hsuffix⟩
    obtain ⟨hpo, hw, rfl⟩ := (and_prefixBits_iff w p si0).mp hmask
    rw [decodeStandard_of_prefix hfirst hpo hcross hw, decodeSuffix_of_word hsuffix]
    simp

/-! ### The other forms -/

/-- A form other than `paddi` that decodes stands there as the encoder writes it. -/
theorem holdsAt_encode_of_decodeAt {m : Mode} (hd : decodeAt p cross m fetch pc = .ok (i, n)) (hn : i.width ≠ 8) :
    HoldsAt fetch pc.toNat (encode p i) := by
  cases m with
  | standard =>
    obtain ⟨a, ha, ⟨hpo, h⟩ | ⟨-, b, hb, ⟨hpo, h⟩ | ⟨-, -, -, -, h⟩ | ⟨hpo, -, h⟩⟩⟩ := decodeStandard_ok hd
    · obtain ⟨hso, -, hform⟩ := decodeH16_ok h
      have hword := wordH16_of_fields a hpo hso
      obtain ⟨hc, rfl⟩ | ⟨hc, rfl⟩ := hform <;>
      · rw [hc] at hword
        rw [encode, holdsAt_parcel, hword, ha]
    · obtain ⟨-, c, hc, -, rfl⟩ := decodeX48_ok h
      have hfirst := (field_word_append (a ++ b) c (by omega)).trans hpo
      rw [encode, wordX48_of_fields _ hfirst, holdsAt_word_parcel, holdsAt_word_append]
      exact ⟨⟨ha, hb⟩, hc⟩
    · obtain ⟨c, d, -, -, -, -, rfl⟩ := decodeSuffix_ok h
      exact absurd rfl hn
    · cases h
      rw [encode, wordS32_of_fields _ hpo]
      exact holdsAt_word_append.mpr ⟨ha, hb⟩
  | compressed =>
    obtain ⟨h, hh, hc⟩ := decodeAt_compressed_ok hd
    obtain ⟨hsoh, hso, -, hform⟩ := decodeCompressed_ok hc
    have hword := wordC16_of_fields h hsoh hso
    obtain ⟨hscmt, hscm, rfl⟩ | ⟨hscmt, hscm, rfl⟩ | ⟨hscmt, hscm, rfl⟩ := hform <;>
    · rw [hscmt, hscm] at hword
      rw [encode, holdsAt_parcel, hword, hh]

/-- `h.add` and `hs.add` decode where their parcel stands (R64, R66). -/
theorem decodeStandard_of_wordH16 {t s : SmallCode} {c : BitVec 1}
    (h : fetchParcel fetch pc.toNat = .ok (wordH16 t s c)) :
    decodeStandard p cross fetch pc = if c = 0#1 then .ok (.hAdd t s, 2) else .ok (.hsAdd t s, 2) := by
  rw [decodeStandard_po5 h (wordH16_po t s c), decodeH16, wordH16_so, wordH16_scm, wordH16_srt, wordH16_srs]
  exact if_neg (not_not.mpr rfl)

/-- `x.placeholder` decodes where its 48 bits stand (R65, R66). -/
theorem decodeStandard_of_wordX48 {high : BitVec 15} {xo : BitVec 10} {low : BitVec 17} (hxo : xo ≠ reservedXo)
    (h : HoldsAt fetch pc.toNat (bytesOf 6 (wordX48 high xo low))) :
    decodeStandard p cross fetch pc = .ok (.xPlaceholder high xo low, 6) := by
  obtain ⟨w, c, hv⟩ : ∃ (w : BitVec 32) (c : Parcel), wordX48 high xo low = w ++ c :=
    ⟨_, _, (BitVec.extractLsb'_append_extractLsb' (w := 32) (len := 16)).symm⟩
  have hpo := wordX48_po high xo low
  have hxo' := wordX48_xo high xo low
  rw [hv, field_word_append w c (by omega)] at hpo hxo'
  rw [hv, holdsAt_word_parcel] at h
  rw [decodeStandard_of_word h.1 (by rw [hpo]; decide), if_pos hpo, decodeX48_of_parcel h.2 (hxo' ▸ hxo), ← hv,
    wordX48_high, wordX48_xo, wordX48_low]

/-- `addi` decodes where its word stands, under 14 unless `isPaddiPrefix` takes the word (R62, R69). -/
theorem decodeStandard_of_wordS32 {rt ra : RegNum} {si : BitVec 16}
    (henc : Instr.encodable p (.addi rt ra si) = true)
    (h : HoldsAt fetch pc.toNat (bytesOf 4 (wordS32 rt ra si))) :
    decodeStandard p cross fetch pc = .ok (.addi rt ra si, 4) := by
  have hprefix : p = .fourteen → isPaddiPrefix (wordS32 rt ra si) = false := by
    rintro rfl
    rw [← addiIsPrefix14_fields, wordS32_rt, wordS32_ra]
    simpa [Instr.encodable] using henc
  rw [decodeStandard_of_addi h (wordS32_po rt ra si) hprefix, decodeS32, wordS32_rt, wordS32_ra, wordS32_si]

/-- `c.add`, `cs.add` and `cst.add` decode where their parcel stands (R67, R74). -/
theorem decodeAt_of_wordC16 {t s : SmallCode} {m c : BitVec 1}
    (h : fetchParcel fetch pc.toNat = .ok (wordC16 m t s c)) :
    decodeAt p cross .compressed fetch pc =
      if m = 0#1 ∧ c = 0#1 then .ok (.cAdd t s, 2)
      else if m = 0#1 ∧ c = 1#1 then .ok (.csAdd t s, 2)
      else if m = 1#1 ∧ c = 1#1 then .ok (.cstAdd t s, 2)
      else .error (.illegalEncoding pc (wordC16 m t s c)) := by
  rw [decodeAt, h]
  simp only [bind, Except.bind]
  rw [decodeCompressed, wordC16_soh, wordC16_so, wordC16_scmt, wordC16_scm, wordC16_srt, wordC16_srs]
  exact if_neg (not_or.mpr ⟨not_not.mpr rfl, not_not.mpr rfl⟩)

/-- Where an instruction's encoding stands, decode gives the instruction. -/
theorem decodeAt_of_encode (hwf : i.wellFormed = true) (henc : i.encodable p = true)
    (hcross : i.width = 8 → crosses64B cross pc = false) (h : HoldsAt fetch pc.toNat (encode p i)) :
    decodeAt p cross i.mode fetch pc = .ok (i, i.width) := by
  cases i with
  | addi rt ra si => exact decodeStandard_of_wordS32 henc h
  | paddi rt ra si0 si1 =>
    obtain ⟨hfirst, hsuffix⟩ := holdsAt_append.mp h
    exact decodeStandard_paddi_iff.mpr ⟨hcross rfl, _, hfirst, wordP64_and_prefixBits p si0, hsuffix⟩
  | hAdd t s => exact decodeStandard_of_wordH16 (holdsAt_parcel.mp h)
  | hsAdd t s => exact decodeStandard_of_wordH16 (holdsAt_parcel.mp h)
  | xPlaceholder high xo low => exact decodeStandard_of_wordX48 (bne_iff_ne.mp hwf) h
  | cAdd t s => exact decodeAt_of_wordC16 (holdsAt_parcel.mp h)
  | csAdd t s => exact decodeAt_of_wordC16 (holdsAt_parcel.mp h)
  | cstAdd t s => exact decodeAt_of_wordC16 (holdsAt_parcel.mp h)

/-- Every form but `paddi` decodes exactly where its encoding stands. -/
theorem decodeAt_iff_holdsAt (hn : i.width ≠ 8) :
    decodeAt p cross i.mode fetch pc = .ok (i, i.width) ↔
      i.wellFormed = true ∧ i.encodable p = true ∧ HoldsAt fetch pc.toNat (encode p i) := by
  constructor
  · intro hd
    obtain ⟨hwf, henc⟩ := decodeAt_wellFormed hd
    exact ⟨hwf, henc, holdsAt_encode_of_decodeAt hd hn⟩
  · rintro ⟨hwf, henc, h⟩
    exact decodeAt_of_encode hwf henc (fun h8 => absurd h8 hn) h

/-- The same for a form that is well formed and can be encoded. -/
theorem decodeAt_iff_holdsAt_encode (i : Instr) (hn : i.width ≠ 8) (hwf : i.wellFormed = true)
    (henc : i.encodable p = true) :
    decodeAt p cross i.mode fetch pc = .ok (i, i.width) ↔ HoldsAt fetch pc.toNat (encode p i) := by
  rw [decodeAt_iff_holdsAt hn, and_iff_right hwf, and_iff_right henc]

/-- Settles O3: each form decodes where its encoding stands. -/
theorem decodeOfEncodeIsTheInstruction : Obligations.DecodeOfEncodeIsTheInstruction :=
  fun _ _ _ _ _ hwf henc hcross h => decodeAt_of_encode hwf henc hcross h

/-- Byte by byte, `prefixBits` masks the second byte only: its `//` bits (R71). -/
theorem and_byte_prefixBits (c : Byte) {k : Nat} (hk : k < 4) :
    c &&& prefixBits.extractLsb' (8 * (4 - 1 - k)) 8 = if k = 1 then c &&& 0x93#8 else c := by
  match k with
  | 0 => exact BitVec.and_allOnes
  | 1 => rfl
  | 2 => exact BitVec.and_allOnes
  | 3 => exact BitVec.and_allOnes

/-- The bytes of a `paddi` are those in the stream, the `//` bits of the second masked out (R71). -/
theorem masked_bytes_of_paddi {w s : BitVec 32} {si0 : BitVec 18} {a : Nat} (hw : w &&& prefixBits = wordP64 p si0)
    (h : HoldsAt fetch a (bytesOf 4 w ++ bytesOf 4 s)) {k : Nat} {b : Byte}
    (hk : (bytesOf 4 (wordP64 p si0) ++ bytesOf 4 s)[k]? = some b) :
    ∃ c, fetch (a + k) = .ok c ∧ (if k = 1 then c &&& 0x93#8 else c) = b := by
  rw [← hw] at hk
  by_cases hlt : k < 4
  · have hbyte (v : BitVec 32) : (bytesOf 4 v ++ bytesOf 4 s)[k]? = some (v.extractLsb' (8 * (4 - 1 - k)) 8) := by
      rw [List.getElem?_append_left (by simpa using hlt), getElem?_bytesOf v hlt]
    refine ⟨_, h k _ (hbyte w), ?_⟩
    rw [← and_byte_prefixBits _ hlt, ← BitVec.extractLsb'_and]
    exact Option.some.inj ((hbyte _).symm.trans hk)
  · refine ⟨b, h k b ?_, if_neg (by omega)⟩
    rw [List.getElem?_append_right (by simpa using hlt)] at hk ⊢
    simpa using hk

/-- Settles O4: for `paddi` byte by byte, and every other form stands there as the encoder writes it. -/
theorem encodeOfDecodeIsTheBytes : Obligations.EncodeOfDecodeIsTheBytes := by
  intro p cross m fetch pc i n hd k b hk
  obtain ⟨rfl, hm⟩ := decodeAt_width hd
  by_cases hn : i.width = 8
  · cases i with
    | paddi rt ra si0 si1 =>
      cases hm
      obtain ⟨-, w, hfirst, hw, hsuffix⟩ := decodeStandard_paddi_iff.mp hd
      simpa [Instr.width] using masked_bytes_of_paddi hw (holdsAt_append.mpr ⟨hfirst, hsuffix⟩) hk
    | _ => cases hn
  · exact ⟨b, holdsAt_encode_of_decodeAt hd hn k b hk, if_neg (fun h => hn h.1)⟩

end Sys2Proof
end

section
/-! ## The assembler, and the disassembler that reads its programs back (spec/30_encoding.md R77, R78, R80) -/

namespace Sys2Proof.Machine

/-! ### What the assembler accepts -/

/-- A computation that succeeds: its first part did, and the rest from what that gave. -/
theorem except_bind_eq_ok {ε α β : Type} {x : Except ε α} {f : α → Except ε β} {b : β} :
    (x >>= f) = .ok b ↔ ∃ a, x = .ok a ∧ f a = .ok b := by
  cases x with
  | error e => exact ⟨nofun, fun ⟨_, h, _⟩ => nomatch h⟩
  | ok a => exact ⟨fun h => ⟨a, rfl, h⟩, fun ⟨_, h, hb⟩ => by cases h; exact hb⟩

theorem asmReg_eq_ok {n : Nat} {r : RegNum} : asmReg n = .ok r ↔ n < 32 ∧ r = BitVec.ofNat 5 n := by
  unfold asmReg
  split
  · next h => simp [h, eq_comm]
  · next h => simp [h]

theorem asmImm_eq_ok {w : Nat} {i : Int} {v : BitVec w} :
    asmImm w i = .ok v ↔ (-2 ^ (w - 1) ≤ i ∧ i < 2 ^ (w - 1)) ∧ v = BitVec.ofInt w i := by
  unfold asmImm
  split
  · next h => simp [h, eq_comm]
  · next h => simp [h]

/-- `smallCode` inverts `small` (spec/10_state.md R22). -/
theorem smallCode_eq_some {r : RegNum} {c : SmallCode} : smallCode r = some c ↔ small c = r := by
  revert r c
  decide

theorem asmSmall_eq_ok {n : Nat} {c : SmallCode} : asmSmall n = .ok c ↔ (small c).toNat = n := by
  unfold asmSmall
  rw [except_bind_eq_ok]
  constructor
  · rintro ⟨r, hr, hc⟩
    obtain ⟨hn, rfl⟩ := asmReg_eq_ok.mp hr
    split at hc
    · next hcode =>
      cases hc
      rw [smallCode_eq_some.mp hcode, BitVec.toNat_ofNat, Nat.mod_eq_of_lt hn]
    · cases hc
  · rintro rfl
    refine ⟨small c, asmReg_eq_ok.mpr ⟨(small c).isLt, BitVec.eq_of_toNat_eq (by simp)⟩, ?_⟩
    rw [smallCode_eq_some.mpr rfl]

theorem assembleLine_addi_eq_ok {rt ra : Nat} {v : Int} {i : Instr} :
    assembleLine (.addi rt ra v) = .ok i ↔
      rt < 32 ∧ ra < 32 ∧ -32768 ≤ v ∧ v ≤ 32767 ∧
        i = .addi (BitVec.ofNat 5 rt) (BitVec.ofNat 5 ra) (BitVec.ofInt 16 v) := by
  have hrange : (-2 ^ (16 - 1) ≤ v ∧ v < 2 ^ (16 - 1)) ↔ -32768 ≤ v ∧ v ≤ 32767 := by omega
  simp only [assembleLine, except_bind_eq_ok, asmReg_eq_ok, asmImm_eq_ok, hrange]
  constructor
  · rintro ⟨_, ⟨hrt, rfl⟩, _, ⟨hra, rfl⟩, _, ⟨⟨hlow, hhigh⟩, rfl⟩, h⟩
    cases h
    exact ⟨hrt, hra, hlow, hhigh, rfl⟩
  · rintro ⟨hrt, hra, hlow, hhigh, rfl⟩
    exact ⟨_, ⟨hrt, rfl⟩, _, ⟨hra, rfl⟩, _, ⟨⟨hlow, hhigh⟩, rfl⟩, rfl⟩

/-- The halves of a 34-bit immediate, split at bit 16 (R68). -/
theorem imm34_eq_iff {si0 : BitVec 18} {si1 : BitVec 16} {im : BitVec 34} :
    imm34 si0 si1 = im ↔ si0 = im.extractLsb' 16 18 ∧ si1 = im.extractLsb' 0 16 := by
  constructor
  · rintro rfl
    exact ⟨BitVec.extractLsb'_append_eq_left.symm, BitVec.extractLsb'_append_eq_right.symm⟩
  · rintro ⟨rfl, rfl⟩
    exact BitVec.extractLsb'_append_extractLsb'

theorem assembleLine_paddi_eq_ok {rt ra : Nat} {v : Int} {i : Instr} :
    assembleLine (.paddi rt ra v) = .ok i ↔
      rt < 32 ∧ ra < 32 ∧ -2 ^ 33 ≤ v ∧ v ≤ 2 ^ 33 - 1 ∧
        ∃ si0 si1, i = .paddi (BitVec.ofNat 5 rt) (BitVec.ofNat 5 ra) si0 si1 ∧ imm34 si0 si1 = BitVec.ofInt 34 v := by
  have hrange : (-2 ^ (34 - 1) ≤ v ∧ v < 2 ^ (34 - 1)) ↔ -2 ^ 33 ≤ v ∧ v ≤ 2 ^ 33 - 1 := by omega
  simp only [assembleLine, except_bind_eq_ok, asmReg_eq_ok, asmImm_eq_ok, hrange, imm34_eq_iff]
  constructor
  · rintro ⟨_, ⟨hrt, rfl⟩, _, ⟨hra, rfl⟩, _, ⟨⟨hlow, hhigh⟩, rfl⟩, h⟩
    cases h
    exact ⟨hrt, hra, hlow, hhigh, _, _, rfl, rfl, rfl⟩
  · rintro ⟨hrt, hra, hlow, hhigh, _, _, rfl, rfl, rfl⟩
    exact ⟨_, ⟨hrt, rfl⟩, _, ⟨hra, rfl⟩, _, ⟨⟨hlow, hhigh⟩, rfl⟩, rfl⟩

theorem assembleLine_add_eq_ok {pre : AddPrefix} {rt rs : Nat} {i : Instr} :
    assembleLine (.add pre rt rs) = .ok i ↔
      ∃ t s : SmallCode, (small t).toNat = rt ∧ (small s).toNat = rs ∧ i = asmAdd pre t s := by
  simp only [assembleLine, except_bind_eq_ok, asmSmall_eq_ok]
  constructor
  · rintro ⟨t, ht, s, hs, h⟩
    cases h
    exact ⟨t, s, ht, hs, rfl⟩
  · rintro ⟨t, s, ht, hs, rfl⟩
    exact ⟨t, ht, s, hs, rfl⟩

/-- Settles O51: the line's operands are read one after the other, each by what its own reader accepts. -/
theorem assemblerAcceptsExactly : Obligations.AssemblerAcceptsExactly :=
  ⟨fun _ _ _ _ => assembleLine_addi_eq_ok, fun _ _ _ _ => assembleLine_paddi_eq_ok,
    fun _ _ _ _ => assembleLine_add_eq_ok, fun _ => nofun, fun _ _ _ _ => nofun⟩

/-! ### Reading a program back -/

/-- What the assembler gives is well formed: none of it is an `x.placeholder` (R80). -/
theorem assembleLine_wellFormed {l : AsmLine} {i : Instr} (h : assembleLine l = .ok i) : i.wellFormed = true := by
  cases l with
  | addi rt ra v => obtain ⟨-, -, -, -, rfl⟩ := assembleLine_addi_eq_ok.mp h; rfl
  | paddi rt ra v => obtain ⟨-, -, -, -, si0, si1, rfl, -⟩ := assembleLine_paddi_eq_ok.mp h; rfl
  | add pre rt rs => obtain ⟨t, s, -, -, rfl⟩ := assembleLine_add_eq_ok.mp h; cases pre <;> rfl
  | placeholder => cases h
  | cAddi rt ra v => cases h

/-- A line accepted in a mode is a well-formed instruction of that mode that `PREFIX_PO` encodes (R69, R78). -/
theorem assembleIn_eq_ok {p : PrefixPo} {m : Mode} {l : AsmLine} {i : Instr} (h : assembleIn p m l = .ok i) :
    i.wellFormed = true ∧ i.mode = m ∧ i.encodable p = true := by
  obtain ⟨j, hj, h⟩ := except_bind_eq_ok.mp h
  split at h
  · cases h
  · next hm =>
    split at h
    · next henc =>
      cases h
      exact ⟨assembleLine_wellFormed hj, not_not.mp hm, henc⟩
    · cases h

theorem assembleFrom_cons_eq_ok {p : PrefixPo} {m : Mode} {b : Bool} {l : AsmLine} {ls : List AsmLine}
    {is : List Instr} :
    assembleFrom p m b (l :: ls) = .ok is ↔
      ∃ i js, assembleIn p m l = .ok i ∧
        assembleFrom p (nextMode m b i).1 (nextMode m b i).2 ls = .ok js ∧ is = i :: js := by
  simp only [assembleFrom, except_bind_eq_ok, Except.ok.injEq, eq_comm (b := is), exists_and_left]

open Laws in
/-- The encoder writes as many bytes as the form is wide (R60). -/
theorem length_encode (p : PrefixPo) : (i : Instr) → (encode p i).length = i.width
  | .addi rt ra si => EncodedLength.addi rt ra si p
  | .paddi rt ra si0 si1 => EncodedLength.paddi rt ra si0 si1 p
  | .hAdd t s => EncodedLength.hAdd t s p
  | .hsAdd t s => EncodedLength.hsAdd t s p
  | .xPlaceholder high xo low => EncodedLength.xPlaceholder high xo low p
  | .cAdd t s => EncodedLength.cAdd t s p
  | .csAdd t s => EncodedLength.csAdd t s p
  | .cstAdd t s => EncodedLength.cstAdd t s p

theorem width_pos (i : Instr) : 0 < i.width := by
  cases i <;> exact Nat.succ_pos _

/-- Nothing is read from the empty stream. -/
theorem disassembleFrom_nil (p : PrefixPo) (fuel : Nat) (m : Mode) (b : Bool) : disassembleFrom p fuel m b [] = [] := by
  cases fuel with
  | zero => rfl
  | succ fuel => cases m <;> rfl

/-- An instruction at the start of a stream is read, and reading goes on after it in the mode it leaves (R28, R77). -/
theorem disassembleFrom_encode {p : PrefixPo} {i : Instr} (hwf : i.wellFormed = true) (henc : i.encodable p = true)
    (fuel : Nat) (b : Bool) (rest : List Byte) :
    disassembleFrom p (fuel + 1) i.mode b (encode p i ++ rest) =
      i :: disassembleFrom p fuel (nextMode i.mode b i).1 (nextMode i.mode b i).2 rest := by
  have hdecode : decodeAt p false i.mode (fetchFrom (encode p i ++ rest)) 0 = .ok (i, i.width) :=
    decodeAt_of_encode hwf henc (fun _ => rfl) (holdsAt_fetchFrom _ _)
  have hrest : (encode p i ++ rest).drop i.width = rest := length_encode p i ▸ List.drop_left
  rw [disassembleFrom, hdecode]
  simp only [hrest]

/-- A program accepted from a mode on is read back from that mode on, with fuel for as many instructions as the stream
has bytes. -/
theorem disassembleFrom_streamOf {p : PrefixPo} {ls : List AsmLine} {m : Mode} {b : Bool} {is : List Instr}
    (h : assembleFrom p m b ls = .ok is) {fuel : Nat} (hfuel : (streamOf p is).length ≤ fuel) :
    disassembleFrom p fuel m b (streamOf p is) = is := by
  induction ls generalizing m b is fuel with
  | nil =>
    cases h
    exact disassembleFrom_nil p fuel m b
  | cons l ls ih =>
    obtain ⟨i, js, hi, hjs, rfl⟩ := assembleFrom_cons_eq_ok.mp h
    obtain ⟨hwf, rfl, henc⟩ := assembleIn_eq_ok hi
    have hstream : streamOf p (i :: js) = encode p i ++ streamOf p js := List.flatMap_cons
    have hwidth := width_pos i
    rw [hstream, List.length_append, length_encode] at hfuel
    obtain ⟨fuel, rfl⟩ : ∃ f, fuel = f + 1 := ⟨fuel - 1, by omega⟩
    rw [hstream, disassembleFrom_encode hwf henc, ih hjs (by omega)]

/-- Settles O52: the disassembler has the stream's length as fuel, and both start in the launch mode. -/
theorem assembledProgramReadsBack : Obligations.AssembledProgramReadsBack :=
  fun _ _ _ h => disassembleFrom_streamOf h (Nat.le_refl _)

end Sys2Proof.Machine
end

section
/-! ## The encoding table: masks, formulas and reserved bits (spec/30_encoding.md R69, R71, R74, R82) -/

namespace Sys2Proof

variable {p : PrefixPo} {cross : Bool} {fetch fetch' : Nat → Except Reject Byte} {pc : Word}

/-! ### The `//` bits -/

/-- Of the second byte of a `paddi` only the bits of 0x93 count (R71). -/
theorem and_prefixBits_congr {hi b c : Byte} (low : Parcel) (h : b &&& 0x93#8 = c &&& 0x93#8) :
    ((hi ++ b : BitVec 16) ++ low : BitVec 32) &&& prefixBits =
      ((hi ++ c : BitVec 16) ++ low : BitVec 32) &&& prefixBits := by
  have hmask : prefixBits = (0xFF#8 ++ 0x93#8 : BitVec 16) ++ 0xFFFF#16 := by decide
  rw [hmask, BitVec.and_append, BitVec.and_append, BitVec.and_append, BitVec.and_append, h]

/-- A stream that differs in the second byte, but not in its bits of 0x93, holds a word that differs in its `//` bits
alone. -/
theorem holdsAt_with_second_byte {a : Nat} {w : BitVec 32} {b c : Byte} (h : HoldsAt fetch a (bytesOf 4 w))
    (hb : fetch (a + 1) = .ok b) (hc : fetch' (a + 1) = .ok c) (hbc : b &&& 0x93#8 = c &&& 0x93#8)
    (hother : ∀ k, k ≠ a + 1 → fetch' k = fetch k) :
    ∃ w', HoldsAt fetch' a (bytesOf 4 w') ∧ w' &&& prefixBits = w &&& prefixBits := by
  obtain ⟨hx, hy⟩ := holdsAt_word.mp h
  obtain ⟨hi, lo, hhi, hlo, hparcel⟩ := fetchParcel_ok.mp hx
  cases hb.symm.trans hlo
  refine ⟨(hi ++ c : BitVec 16) ++ w.extractLsb' 0 16, holdsAt_word_append.mpr ⟨?_, ?_⟩, ?_⟩
  · exact fetchParcel_ok.mpr ⟨hi, c, (hother a (by omega)).trans hhi, hc, rfl⟩
  · exact (fetchParcel_congr (hother _ (by omega)) (hother _ (by omega))).trans hy
  · rw [and_prefixBits_congr _ hbc.symm, ← hparcel, word_eq_append]

/-- The encoder writes the `//` bits, those of 0x6C in the second byte, as zero. -/
theorem second_byte_of_encode_paddi {rt ra : RegNum} {si0 : BitVec 18} {si1 : BitVec 16} {b : Byte}
    (h : (encode p (.paddi rt ra si0 si1))[1]? = some b) : b &&& 0x6C#8 = 0#8 := by
  have hbyte : (wordP64 p si0).extractLsb' (8 * (4 - 1 - 1)) 8 = b := Option.some.inj h
  rw [← hbyte, ← wordP64_and_prefixBits, BitVec.extractLsb'_and, BitVec.and_assoc]
  exact BitVec.and_zero

/-- Settles O6: a `paddi` decodes by its masked first word, and the encoder writes only what the mask keeps. -/
theorem paddiIgnoresReservedBits : Obligations.PaddiIgnoresReservedBits := by
  refine ⟨fun p cross fetch fetch' pc rt ra si0 si1 b c hd hb hc hbc hother => ?_,
    fun _ _ _ _ _ _ => second_byte_of_encode_paddi⟩
  obtain ⟨hcross, w, hfirst, hw, hsuffix⟩ := decodeStandard_paddi_iff.mp hd
  obtain ⟨w', hfirst', hw'⟩ := holdsAt_with_second_byte hfirst hb hc hbc hother
  refine decodeStandard_paddi_iff.mpr ⟨hcross, w', hfirst', hw'.trans hw, fun k b hk => ?_⟩
  rw [hother _ (by omega)]
  exact hsuffix k b hk

/-! ### Match and mask -/

/-- Settles O7: the mask's three values are the three forms' fields, and every other parcel is rejected. -/
theorem compressedDecoderIsTheMaskTable : Obligations.CompressedDecoderIsTheMaskTable := by
  intro pc h
  rw [show 0x0400#16 = 0#1 ++ sohAdd ++ 0#3 ++ 0#6 ++ 0#1 by decide,
    show 0x0401#16 = 0#1 ++ sohAdd ++ 0#3 ++ 0#6 ++ 1#1 by decide,
    show 0x8401#16 = 1#1 ++ sohAdd ++ 0#3 ++ 0#6 ++ 1#1 by decide]
  simp only [c16_mask_iff, decodeCompressed]
  by_cases hfix : field h 1 5 = sohAdd ∧ field h 6 8 = 0#3
  · obtain ⟨hsoh, hso⟩ := hfix
    refine (if_neg (not_or.mpr ⟨not_not.mpr hsoh, not_not.mpr hso⟩)).trans ?_
    simp only [hsoh, hso, true_and]
    rfl
  · have hform (m c : BitVec 1) :
        ¬(field h 0 0 = m ∧ field h 1 5 = sohAdd ∧ field h 6 8 = 0#3 ∧ field h 15 15 = c) :=
      fun ⟨_, hsoh, hso, _⟩ => hfix ⟨hsoh, hso⟩
    refine (if_pos (not_and_or.mp hfix)).trans ?_
    rw [if_neg (hform _ _), if_neg (hform _ _), if_neg (hform _ _)]

/-- A field of a part of a value. -/
theorem field_extractLsb' {n : Nat} (v : BitVec n) (start len j k : Nat) (hk : k < len) :
    field (v.extractLsb' start len) j k = v.extractLsb' (start + (len - 1 - k)) (k - j + 1) := by
  refine BitVec.eq_of_getLsbD_eq fun i hi => ?_
  have hlt : len - 1 - k + i < len := by omega
  simp [field, hi, hlt, Nat.add_assoc]

section
variable {v : BitVec 64} (h : HoldsAt fetch pc.toNat (bytesOf 8 v))
include h

/-- `h.add` and `hs.add` by match and mask. -/
theorem decodeStandard_h16_iff_mask {i : Instr} {t s : SmallCode} {c : BitVec 1}
    (hi : i = .hAdd t s ∧ c = 0#1 ∨ i = .hsAdd t s ∧ c = 1#1) :
    decodeStandard p cross fetch pc = .ok (i, 2) ↔
      v.extractLsb' 48 16 &&& 0xFF81#16 = poH16 ++ 0#3 ++ 0#6 ++ c ∧
        v.extractLsb' 52 3 = t ∧ v.extractLsb' 49 3 = s := by
  rw [bytesOf_split 2 6, holdsAt_append] at h
  have hform : decodeStandard p cross fetch pc = .ok (i, 2) ↔
      HoldsAt fetch pc.toNat (bytesOf 2 (wordH16 t s c)) := by
    obtain ⟨rfl, rfl⟩ | ⟨rfl, rfl⟩ := hi
    · exact decodeAt_iff_holdsAt_encode (.hAdd t s) (by simp [Instr.width]) rfl rfl
    · exact decodeAt_iff_holdsAt_encode (.hsAdd t s) (by simp [Instr.width]) rfl rfl
  have hsrt := field_extractLsb' v 48 16 9 11 (by omega)
  have hsrs := field_extractLsb' v 48 16 12 14 (by omega)
  rw [hform, holdsAt_bytesOf_unique h.1]
  refine (eq_wordH16_iff _ t s c).trans ?_
  rw [hsrt, hsrs]

/-- `addi` by match and mask, with `PREFIX_PO` = 1. -/
theorem decodeStandard_addi_iff_mask {rt ra : RegNum} {si : BitVec 16} :
    decodeStandard .one cross fetch pc = .ok (.addi rt ra si, 4) ↔
      v.extractLsb' 32 32 &&& 0xFC000000#32 = 0x38000000#32 ∧
        v.extractLsb' 53 5 = rt ∧ v.extractLsb' 48 5 = ra ∧ v.extractLsb' 32 16 = si := by
  rw [bytesOf_split 4 4, holdsAt_append] at h
  have hform : decodeStandard .one cross fetch pc = .ok (.addi rt ra si, 4) ↔
      HoldsAt fetch pc.toNat (bytesOf 4 (wordS32 rt ra si)) :=
    decodeAt_iff_holdsAt_encode (.addi rt ra si) (by simp [Instr.width]) rfl rfl
  have hrt := field_extractLsb' v 32 32 6 10 (by omega)
  have hra := field_extractLsb' v 32 32 11 15 (by omega)
  have hsi := field_extractLsb' v 32 32 16 31 (by omega)
  rw [hform, holdsAt_bytesOf_unique h.1]
  refine (eq_wordS32_iff _ rt ra si).trans ?_
  rw [hrt, hra, hsi]

/-- `paddi` by match and mask, with `PREFIX_PO` = 1 and the 64-byte check off. -/
theorem decodeStandard_paddi_iff_mask {rt ra : RegNum} {si0 : BitVec 18} {si1 : BitVec 16} :
    decodeStandard .one false fetch pc = .ok (.paddi rt ra si0 si1, 8) ↔
      v &&& 0xFF900000FC000000#64 = 0x0600000038000000#64 ∧
        v.extractLsb' 21 5 = rt ∧ v.extractLsb' 16 5 = ra ∧ v.extractLsb' 32 18 = si0 ∧ v.extractLsb' 0 16 = si1 := by
  rw [bytesOf_split 4 4, holdsAt_append, length_bytesOf] at h
  obtain ⟨hfirst, hsecond⟩ := h
  have hform : decodeStandard .one false fetch pc = .ok (.paddi rt ra si0 si1, 8) ↔
      v.extractLsb' 32 32 &&& prefixBits = wordP64 .one si0 ∧ v.extractLsb' 0 32 = wordS32 rt ra si1 := by
    rw [decodeStandard_paddi_iff, ← holdsAt_bytesOf_unique hsecond]
    constructor
    · rintro ⟨-, w, hw, hmask, hsuffix⟩
      rw [(holdsAt_bytesOf_unique hfirst).mp hw]
      exact ⟨hmask, hsuffix⟩
    · rintro ⟨hmask, hsuffix⟩
      exact ⟨rfl, _, hfirst, hmask, hsuffix⟩
  have hmask : v &&& 0xFF900000FC000000#64 = 0x0600000038000000#64 ↔
      v.extractLsb' 32 32 &&& 0xFF900000#32 = wordP64 .one 0#18 ∧
        v.extractLsb' 0 32 &&& 0xFC000000#32 = 0x38000000#32 := by
    have hv : v.extractLsb' 32 32 ++ v.extractLsb' 0 32 = v := BitVec.extractLsb'_append_extractLsb'
    have hmasks : 0xFF900000FC000000#64 = 0xFF900000#32 ++ 0xFC000000#32 := by decide
    have hmatch : 0x0600000038000000#64 = wordP64 .one 0#18 ++ 0x38000000#32 := by decide
    rw [← append_and_eq_iff, hv, hmasks, hmatch]
  have hsi0 := field_extractLsb' v 32 32 14 31 (by omega)
  have hrt := field_extractLsb' v 0 32 6 10 (by omega)
  have hra := field_extractLsb' v 0 32 11 15 (by omega)
  have hsi1 := field_extractLsb' v 0 32 16 31 (by omega)
  rw [hform, hmask, eq_wordS32_iff, and_prefixBits_iff, prefix_mask_iff, hsi0, hrt, hra, hsi1]
  constructor
  · rintro ⟨⟨hpo, hprefix, rfl⟩, hpo', rfl, rfl, rfl⟩
    exact ⟨⟨⟨hpo, hprefix⟩, hpo'⟩, rfl, rfl, rfl, rfl⟩
  · rintro ⟨⟨⟨hpo, hprefix⟩, hpo'⟩, rfl, rfl, rfl, rfl⟩
    exact ⟨⟨hpo, hprefix, rfl⟩, hpo', rfl, rfl, rfl⟩

/-- `x.placeholder` by match and mask. -/
theorem decodeStandard_x48_iff_mask :
    (∃ high xo low, decodeStandard p cross fetch pc = .ok (.xPlaceholder high xo low, 6)) ↔
      v.extractLsb' 16 48 &&& 0xFC0000000000#48 = 0#48 ∧
        v.extractLsb' 16 48 &&& 0x000007FE0000#48 ≠ 0x000002000000#48 := by
  rw [bytesOf_split 6 2, holdsAt_append] at h
  have hform (high : BitVec 15) (xo : BitVec 10) (low : BitVec 17) :
      decodeStandard p cross fetch pc = .ok (.xPlaceholder high xo low, 6) ↔
        xo ≠ reservedXo ∧ v.extractLsb' 16 48 = wordX48 high xo low :=
    (decodeAt_iff_holdsAt (i := .xPlaceholder high xo low) (by simp [Instr.width])).trans
      ⟨fun ⟨hwf, _, hx⟩ => ⟨bne_iff_ne.mp hwf, (holdsAt_bytesOf_unique h.1).mp hx⟩,
        fun ⟨hxo, hx⟩ => ⟨bne_iff_ne.mpr hxo, rfl, (holdsAt_bytesOf_unique h.1).mpr hx⟩⟩
  simp only [hform, x48_po_mask_iff, ne_eq, x48_xo_mask_iff]
  constructor
  · rintro ⟨high, xo, low, hxo, hv⟩
    rw [hv, wordX48_po, wordX48_xo]
    exact ⟨rfl, hxo⟩
  · rintro ⟨hpo, hxo⟩
    exact ⟨_, _, _, hxo, (wordX48_of_fields _ hpo).symm⟩

end

/-- Settles O8: each form in turn, with its match as the constant the table gives. -/
theorem standardDecoderIsTheMaskTable : Obligations.StandardDecoderIsTheMaskTable :=
  fun _ _ _ h =>
    ⟨fun _ _ => decodeStandard_h16_iff_mask h (.inl ⟨rfl, rfl⟩),
      fun _ _ => decodeStandard_h16_iff_mask h (.inr ⟨rfl, rfl⟩),
      fun _ _ _ => decodeStandard_addi_iff_mask h, fun _ _ _ _ => decodeStandard_paddi_iff_mask h,
      decodeStandard_x48_iff_mask h⟩

/-! ### The encoding formulas -/

/-- A value that is `k` as a number is `k` read as a value. -/
theorem eq_ofNat_of_toNat {n k : Nat} {w : BitVec n} (h : w.toNat = k) : w = BitVec.ofNat n k := by
  rw [← h, BitVec.ofNat_toNat, BitVec.setWidth_eq]

theorem wordS32_eq_ofNat (rt ra : RegNum) (si : BitVec 16) :
    wordS32 rt ra si = BitVec.ofNat 32 (0x38000000 + (rt.toNat <<< 21) + (ra.toNat <<< 16) + si.toNat) := by
  rw [Nat.shiftLeft_eq, Nat.shiftLeft_eq]
  exact eq_ofNat_of_toNat (wordS32_toNat rt ra si)

theorem wordH16_eq_ofNat (t s : SmallCode) (c : BitVec 1) :
    wordH16 t s c = BitVec.ofNat 16 (0x1400 + c.toNat + (t.toNat <<< 4) + (s.toNat <<< 1)) := by
  refine eq_ofNat_of_toNat ?_
  rw [wordH16_toNat, Nat.shiftLeft_eq, Nat.shiftLeft_eq]
  omega

theorem wordC16_eq_ofNat (m : BitVec 1) (t s : SmallCode) (c : BitVec 1) :
    wordC16 m t s c =
      BitVec.ofNat 16 (m.toNat * 2 ^ 15 + 0x0400 + c.toNat + (t.toNat <<< 4) + (s.toNat <<< 1)) := by
  refine eq_ofNat_of_toNat ?_
  rw [wordC16_toNat, Nat.shiftLeft_eq, Nat.shiftLeft_eq]
  omega

/-- Settles O9: the word of each form as a sum. -/
theorem encodingFormulas : Obligations.EncodingFormulas := by
  refine ⟨fun p rt ra si => ?_, fun p rt ra si0 si1 => ?_, fun p t s => ?_, fun p t s => ?_, fun p t s => ?_,
    fun p t s => ?_, fun p t s => ?_⟩
  · rw [encode, wordS32_eq_ofNat]
  · rw [encode, wordS32_eq_ofNat, eq_ofNat_of_toNat (wordP64_toNat p si0)]
    cases p <;> rfl
  · rw [encode, wordH16_eq_ofNat]
    rfl
  · rw [encode, wordH16_eq_ofNat]
    rfl
  · rw [encode, wordC16_eq_ofNat]
    rfl
  · rw [encode, wordC16_eq_ofNat]
    rfl
  · rw [encode, wordC16_eq_ofNat]
    rfl

/-! ### `PREFIX_PO` = 14 -/

/-- Settles O14: the mask asks for PO = 14 and the bits of `isPaddiPrefix`, which are `addiIsPrefix14` of the fields. -/
theorem literalPrefixTakesAddiWords : Obligations.LiteralPrefixTakesAddiWords := by
  intro cross fetch pc a b ha hb
  have hword : HoldsAt fetch pc.toNat (bytesOf 4 (a ++ b)) := holdsAt_word_append.mpr ⟨ha, hb⟩
  have hpo : field (a ++ b : BitVec 32) 0 5 = field a 0 5 := field_po_append a b
  have hmask : (a ++ b : BitVec 32) &&& 0xFF900000#32 = 0x3A000000#32 ↔
      field a 0 5 = 14#6 ∧
        addiIsPrefix14 (field (a ++ b : BitVec 32) 6 10) (field (a ++ b : BitVec 32) 11 15) = true := by
    rw [addiIsPrefix14_fields, ← hpo]
    exact prefix_mask_iff (a ++ b) .fourteen
  refine ⟨?_, fun hm rt ra si n hd => ?_, fun hpo14 hm => ?_⟩
  · rw [hmask]
    simp only [addiIsPrefix14, Bool.and_eq_true, decide_eq_true_eq, and_assoc]
  · obtain ⟨-, henc⟩ := decodeAt_wellFormed (m := .standard) hd
    have hheld := holdsAt_encode_of_decodeAt (m := .standard) hd (by simp [Instr.width])
    have heq := (holdsAt_bytesOf_unique hword).mp hheld
    obtain ⟨-, htaken⟩ := hmask.mp hm
    rw [heq, wordS32_rt, wordS32_ra] at htaken
    simp [Instr.encodable, htaken] at henc
  · refine decodeStandard_of_addi hword (hpo.trans hpo14) fun _ => ?_
    rw [← addiIsPrefix14_fields]
    exact Bool.eq_false_iff.mpr fun htaken => hm (hmask.mpr ⟨hpo14, htaken⟩)

end Sys2Proof
end

section
/-! ## Rejections of Standard mode, the immediates, and the words of the test vectors (spec/30_encoding.md R68, R70 to
R73; spec/95_test_vectors.md) -/

namespace Sys2Proof

variable {p : PrefixPo} {cross : Bool} {fetch : Nat → Except Reject Byte} {pc : Word}

/-- A first word whose PO is neither `PREFIX_PO` nor that of `addi` is out of scope (R72). -/
theorem decodeWord_of_other_po {w : BitVec 32} (hp : field w 0 5 ≠ p.value) (ha : field w 0 5 ≠ poAddi) :
    decodeWord p cross fetch pc w = .error (.outOfScope pc (.word w)) := by
  cases p with
  | one => rw [decodeWord, decodeWord1, if_neg hp, if_neg ha]
  | fourteen => rw [decodeWord, decodeWord14, if_neg hp]

/-- With `PREFIX_PO` = 1 a word with that PO that no `paddi` begins with is out of scope (R72, R96). -/
theorem decodeWord_of_other_prefix {w : BitVec 32} (hpo : field w 0 5 = PrefixPo.one.value)
    (hcross : crosses64B cross pc = false) (hw : isPaddiPrefix w = false) :
    decodeWord .one cross fetch pc w = .error (.outOfScope pc (.word w)) := by
  simp only [decodeWord, decodeWord1, hpo, hcross, hw, if_true, if_false, Bool.false_eq_true]

/-- What `isPaddiPrefix` looks at lies in the first parcel. -/
theorem isPaddiPrefix_append_iff (a b : Parcel) :
    isPaddiPrefix (a ++ b) = true ↔ field a 6 7 = 2#2 ∧ field a 8 8 = 0#1 ∧ field a 11 11 = 0#1 := by
  rw [isPaddiPrefix_iff, field_high_append a b (by omega), field_high_append a b (by omega),
    field_high_append a b (by omega)]

end Sys2Proof

namespace Sys2Proof.Machine

section
variable {s : State} (hl : s.Live) (hm : s.mode = .standard)
include hl hm

/-- A live state in Standard mode stops as the Standard-mode decoder rejects (R34). -/
theorem step_of_decodeStandard_error {r : Reject}
    (hd : decodeStandard s.run.prefixPo s.run.prefixCross64bFaults s.fetchByte s.pc = .error r) :
    step s = stopOf r := by
  have hfetch : s.fetchInstr = .error r := by rw [State.fetchInstr, hm, decodeAt, hd]
  rw [step_of_live hl, hfetch]

/-- A live state in Standard mode runs what the Standard-mode decoder gives (R34). -/
theorem step_of_decodeStandard_ok {i : Instr} {n : Nat}
    (hd : decodeStandard s.run.prefixPo s.run.prefixCross64bFaults s.fetchByte s.pc = .ok (i, n)) :
    step s = exec i s := by
  have hfetch : s.fetchInstr = .ok (i, n) := by rw [State.fetchInstr, hm, decodeAt, hd]
  rw [step_of_live hl, hfetch]

end

/-- Settles O10: the range is that of the first nine bits, and the decoder looks no further than the parcel. -/
theorem po5WithNonzeroSoFaults : Obligations.Po5WithNonzeroSoFaults := by
  have hrange (h : Parcel) :
      (field h 0 5 = 5#6 ∧ field h 6 8 ≠ 0#3) ↔ (0x1480 ≤ h.toNat ∧ h.toNat ≤ 0x17FF) := by
    rw [ne_eq, ← BitVec.toNat_inj, ← BitVec.toNat_inj, field_toNat, field_toNat]
    simp only [BitVec.toNat_ofNat]
    omega
  refine ⟨hrange, fun s h hl hm hp hlow hhigh => ?_⟩
  obtain ⟨hpo, hso⟩ := (hrange h).mpr ⟨hlow, hhigh⟩
  refine step_of_decodeStandard_error hl hm (r := .illegalEncoding s.pc h) ?_
  rw [decodeStandard_po5 hp hpo, decodeH16]
  exact if_pos hso

/-- Settles O11: the three ways a word of Power ISA is none of the eight forms. -/
theorem outOfScopeWordsAreRefused : Obligations.OutOfScopeWordsAreRefused := by
  intro s a b hl hm ha hb
  have hword : HoldsAt s.fetchByte s.pc.toNat (bytesOf 4 (a ++ b)) := holdsAt_word_append.mpr ⟨ha, hb⟩
  have hpo : field (a ++ b : BitVec 32) 0 5 = field a 0 5 := field_po_append a b
  refine ⟨?_, ?_, ?_⟩
  · rintro po rfl h0 h5 h14 h1
    refine step_of_decodeStandard_error hl hm (r := .outOfScope s.pc (.word (a ++ b))) ?_
    rw [decodeStandard_word ha hb h5]
    rw [← hpo] at h14 h1
    refine (if_neg h0).trans (decodeWord_of_other_po ?_ h14)
    cases hp : s.run.prefixPo with
    | one => exact h1 hp
    | fourteen => exact h14
  · intro hp hpo1 hcross hother
    refine step_of_decodeStandard_error hl hm (r := .outOfScope s.pc (.word (a ++ b))) ?_
    rw [decodeStandard_word ha hb (by rw [hpo1]; decide), if_neg (by rw [hpo1]; decide), hp]
    refine decodeWord_of_other_prefix (hpo.trans hpo1) hcross ?_
    exact Bool.eq_false_iff.mpr (mt (isPaddiPrefix_append_iff a b).mp hother)
  · intro c d hpo' hcross htype hsub hr hc hd hsuffix
    have hprefix := (isPaddiPrefix_append_iff a b).mpr ⟨htype, hsub, hr⟩
    refine step_of_decodeStandard_error hl hm (r := .outOfScope s.pc (.pair ((a ++ b) ++ (c ++ d)))) ?_
    rw [decodeStandard_of_prefix hword (hpo.trans hpo') hcross hprefix,
      decodeSuffix_of_word (holdsAt_word_append.mpr ⟨hc, hd⟩), field_po_append]
    exact if_pos hsuffix

/-- Settles O12: XO decides between the refusal of the word and the 48-bit form, whose meaning is the other refusal. -/
theorem placeholderClassIsRefused : Obligations.PlaceholderClassIsRefused := by
  intro s a b hl hm ha hb hpo
  have hclass := decodeStandard_word (p := s.run.prefixPo) (cross := s.run.prefixCross64bFaults) ha hb
    (by rw [hpo]; decide)
  replace hclass := hclass.trans (if_pos hpo)
  refine ⟨fun hxo => ?_, fun c hxo hc => ?_⟩
  · refine step_of_decodeStandard_error hl hm (r := .outOfScope s.pc (.word (a ++ b))) ?_
    rw [hclass, decodeX48]
    exact if_pos hxo
  · rw [step_of_decodeStandard_ok hl hm (hclass.trans (decodeX48_of_parcel hc hxo))]
    have hfirst : field ((a ++ b : BitVec 32) ++ c : BitVec 48) 0 5 = poX48 := by
      rw [field_word_append _ _ (by omega), field_po_append]
      exact hpo
    rw [exec, execXPlaceholder, wordX48_of_fields _ hfirst]

/-- The immediate of `paddi` as a number: its high half signed, its low half not (R68). -/
theorem imm34_toInt (si0 : BitVec 18) (si1 : BitVec 16) :
    (imm34 si0 si1).toInt = si0.toInt * 2 ^ 16 + si1.toNat := by
  rw [imm34, BitVec.toInt_append, Int.mul_comm]
  rfl

/-- Sign extension to 64 bits keeps the signed number (spec/00_scope.md R10). -/
theorem sext64_toInt {n : Nat} (v : BitVec n) (hn : n ≤ 64) : (sext64 v).toInt = v.toInt :=
  BitVec.toInt_signExtend_of_le hn

/-- Settles O17: the signed numbers of 16 and 18 bits, and the split at bit 16. -/
theorem immediatesAsIntegers : Obligations.ImmediatesAsIntegers := by
  refine ⟨fun si => ?_, fun si0 si1 => ?_⟩
  · rw [sext64_toInt si (by omega)]
    have hlow := BitVec.le_toInt si
    have hhigh := BitVec.toInt_lt (x := si)
    exact ⟨rfl, by omega, by omega⟩
  · rw [sext64_toInt _ (by omega), imm34_toInt, BitVec.msb_eq_toInt, decide_eq_true_eq]
    have hlow := BitVec.le_toInt si0
    have hhigh := BitVec.toInt_lt (x := si0)
    refine ⟨rfl, ?_, ?_, ?_⟩ <;> omega

end Sys2Proof.Machine

namespace Sys2Proof

/-- Settles O1: each word is concrete, so each clause is evaluated. -/
theorem specWordsDecode : Obligations.SpecWordsDecode := by
  refine ⟨?_, ?_, ?_, ?_, ?_, ?_, ?_, ?_⟩ <;> decide

end Sys2Proof
end

section
/-! ## `addi`, and the one sum of the machine (spec/40_std32_addi.md R90, R91; spec/10_state.md R28, R34) -/

namespace Sys2Proof.Machine

variable {s : State} {i : Instr}

/-! ### The step of an encoding at the pc, and completion in Standard mode -/

/-- A live state whose mode decodes the form runs it where its encoding stands at the pc (R34, R82). -/
theorem step_of_encode (hl : s.Live) (hm : s.mode = i.mode) (hwf : i.wellFormed = true)
    (henc : i.encodable s.run.prefixPo = true)
    (hcross : i.width = 8 → crosses64B s.run.prefixCross64bFaults s.pc = false)
    (h : s.HoldsAtPc (encode s.run.prefixPo i)) : step s = exec i s := by
  have hfetch : s.fetchInstr = .ok (i, i.width) := by
    rw [State.fetchInstr, hm]
    exact decodeAt_of_encode hwf henc hcross h
  rw [step_of_live hl, hfetch]

/-- In Standard mode a form that does not swap by itself goes to Compressed mode only for a pending swap back, and
leaves none (R28). -/
theorem nextMode_of_no_swap (b : Bool) (h : ownNextMode i = (.standard, false)) :
    nextMode .standard b i = (if b then .compressed else .standard, false) := by
  cases b with
  | true => rfl
  | false => exact h

/-- Completion of such a form, as one state (R24, R28). -/
theorem State.complete_of_no_swap (hm : s.mode = .standard) (h : ownNextMode i = (.standard, false)) :
    s.complete i = { s with
      pc := s.pc + BitVec.ofNat 64 i.width
      mode := if s.swapBack then .compressed else .standard
      swapBack := false } := by
  rw [State.complete, hm, nextMode_of_no_swap s.swapBack h]

/-! ### The register each form writes -/

/-- R90, from every state. -/
theorem exec_addi (s : State) (rt ra : RegNum) (si : BitVec 16) :
    exec (.addi rt ra si) s = .next ((s.setReg rt (s.ra0 ra + sext64 si)).complete (.addi rt ra si)) := rfl

/-- R95, from every state. -/
theorem exec_paddi (s : State) (rt ra : RegNum) (si0 : BitVec 18) (si1 : BitVec 16) :
    exec (.paddi rt ra si0 si1) s =
      .next ((s.setReg rt (s.ra0 ra + sext64 (imm34 si0 si1))).complete (.paddi rt ra si0 si1)) := rfl

/-- The five 16-bit forms, from every state (R100, R101, R110 to R112). -/
theorem exec_add16 (s : State) {srt srs : SmallCode}
    (h : i = .hAdd srt srs ∨ i = .hsAdd srt srs ∨ i = .cAdd srt srs ∨ i = .csAdd srt srs ∨ i = .cstAdd srt srs) :
    exec i s = .next ((s.setReg (small srt) (s.reg (small srt) + s.reg (small srs))).complete i) := by
  obtain rfl | rfl | rfl | rfl | rfl := h <;> rfl

/-- A form that writes the sum of two words completes with the sum modulo 2^64, read unsigned or signed (R91). -/
theorem exec_sum_wraps {dest : RegNum} {a b : Word} (h : exec i s = .next ((s.setReg dest (a + b)).complete i)) :
    ∃ t, exec i s = .next t ∧ (t.reg dest).toNat = (a.toNat + b.toNat) % 2 ^ 64 ∧
      (t.reg dest).toInt = (a.toInt + b.toInt).bmod (2 ^ 64) := by
  refine ⟨_, h, ?_⟩
  rw [State.complete_reg, State.reg_setReg_same]
  exact ⟨BitVec.toNat_add a b, BitVec.toInt_add a b⟩

/-! ### The obligations -/

/-- Settles O18: the write of `exec_addi` completed in Standard mode, and the word of R82 as the encoding. -/
theorem addiEffect : Obligations.AddiEffect := by
  intro s rt ra si hm t
  have hexec : exec (.addi rt ra si) s = .next t := by
    rw [exec_addi, State.complete_of_no_swap (s := s.setReg rt _) hm rfl]
    rfl
  refine ⟨hexec, fun hl henc hword => ?_⟩
  rw [← eq_ofNat_of_toNat (wordS32_toNat rt ra si)] at hword
  exact (step_of_encode (i := .addi rt ra si) hl hm rfl henc nofun hword).trans hexec

/-- Settles O25: each form writes one sum of two words. -/
theorem sumsWrapWithoutTrace : Obligations.SumsWrapWithoutTrace := by
  constructor
  · rintro s i rt ra imm (⟨si, rfl, rfl⟩ | ⟨si0, si1, rfl, rfl⟩)
    · exact exec_sum_wraps (exec_addi s rt ra si)
    · exact exec_sum_wraps (exec_paddi s rt ra si0 si1)
  · intro s i srt srs h
    exact exec_sum_wraps (exec_add16 s h)

end Sys2Proof.Machine
end

section
/-! ## `paddi` (spec/41_std64_paddi.md R95; spec/30_encoding.md R71) -/

namespace Sys2Proof

/-- The encoder's prefix is the one whose si0 is zero, with si0 in its last 18 bits (R63, R82). -/
theorem wordP64_zero_or (p : PrefixPo) (si0 : BitVec 18) :
    wordP64 p 0#18 ||| si0.setWidth 32 = wordP64 p si0 := by
  have hsi0 : si0.setWidth 32 = 0#14 ++ si0 := BitVec.setWidth_eq_append (by omega)
  rw [hsi0, wordP64, BitVec.or_append, BitVec.or_zero, BitVec.zero_or, wordP64]

/-- A prefix with `//` bits taken from any word is the encoder's without them (R71). -/
theorem prefix_or_and_prefixBits {p : PrefixPo} {c : BitVec 32} (hc : c = wordP64 p 0#18) (z : BitVec 32)
    (si0 : BitVec 18) :
    (c ||| (z &&& 0x006C0000#32) ||| si0.setWidth 32) &&& prefixBits = wordP64 p si0 := by
  have hdisjoint : 0x006C0000#32 &&& prefixBits = 0#32 := by decide
  calc (c ||| (z &&& 0x006C0000#32) ||| si0.setWidth 32) &&& prefixBits
      = (wordP64 p si0 ||| (z &&& 0x006C0000#32)) &&& prefixBits := by
        rw [BitVec.or_assoc, BitVec.or_comm (z &&& _), ← BitVec.or_assoc, hc, wordP64_zero_or]
    _ = wordP64 p si0 := by
        rw [BitVec.and_or_distrib_right, wordP64_and_prefixBits, BitVec.and_assoc, hdisjoint, BitVec.and_zero,
          BitVec.or_zero]

end Sys2Proof

namespace Sys2Proof.Machine

/-- Settles O19: the write of `exec_paddi` completed in Standard mode, and a prefix that decodes whatever its `//`
bits are. -/
theorem paddiEffect : Obligations.PaddiEffect := by
  intro s rt ra si0 si1 hm t
  have hexec : exec (.paddi rt ra si0 si1) s = .next t := by
    rw [exec_paddi, State.complete_of_no_swap (s := s.setReg rt _) hm rfl]
    rfl
  refine ⟨hexec, fun z hl hcross hwords => ?_⟩
  rw [← eq_ofNat_of_toNat (wordS32_toNat rt ra si1)] at hwords
  obtain ⟨hfirst, hsuffix⟩ := holdsAt_append.mp hwords
  refine (step_of_decodeStandard_ok hl hm (n := 8) ?_).trans hexec
  refine decodeStandard_paddi_iff.mpr ⟨hcross, _, hfirst, prefix_or_and_prefixBits ?_ z si0, hsuffix⟩
  cases s.run.prefixPo <;> rfl

end Sys2Proof.Machine
end

section
/-! ## `h.add` and `hs.add` (spec/42_std16_hadd.md R100, R101) -/

namespace Sys2Proof

/-- The 16-bit Standard parcel of R82, read as a word of the encoder. -/
theorem ofNat_eq_wordH16 {k : Nat} (t s : SmallCode) (c : BitVec 1) (hk : k = 0x1400 + c.toNat) :
    BitVec.ofNat 16 (k + t.toNat * 16 + s.toNat * 2) = wordH16 t s c := by
  refine (eq_ofNat_of_toNat ?_).symm
  rw [wordH16_toNat]
  omega

end Sys2Proof

namespace Sys2Proof.Machine

variable {s : State}

/-- Completion in Standard mode of a form that swaps to Compressed mode by itself, as one state: a pending swap back
asks for the same mode (R24, R28). -/
theorem State.complete_of_swap {i : Instr} (hm : s.mode = .standard) (h : ownNextMode i = (.compressed, false)) :
    s.complete i = { s with
      pc := s.pc + BitVec.ofNat 64 i.width
      mode := .compressed
      swapBack := false } := by
  have hnext : nextMode .standard s.swapBack i = (.compressed, false) := by
    cases s.swapBack with
    | true => rfl
    | false => exact h
  rw [State.complete, hm, hnext]

/-- Settles O20: the write of `exec_add16` completed in Standard mode, and the parcel of R82 as the encoding. -/
theorem hAddEffect : Obligations.HAddEffect := by
  intro s srt srs hm t
  have hexec : exec (.hAdd srt srs) s = .next t := by
    rw [exec_add16 s (.inl rfl), State.complete_of_no_swap (s := s.setReg (small srt) _) hm rfl]
    rfl
  refine ⟨hexec, fun hl hparcel => ?_⟩
  rw [ofNat_eq_wordH16 (k := 0x1400) srt srs 0#1 rfl] at hparcel
  exact (step_of_encode (i := .hAdd srt srs) hl hm rfl rfl nofun hparcel).trans hexec

/-- Settles O21: the write of `exec_add16` completed with the form's own swap, and the parcel of R82 as the encoding. -/
theorem hsAddEffect : Obligations.HsAddEffect := by
  intro s srt srs hm t
  have hexec : exec (.hsAdd srt srs) s = .next t := by
    rw [exec_add16 s (.inr (.inl rfl)), State.complete_of_swap (s := s.setReg (small srt) _) hm rfl]
    rfl
  refine ⟨hexec, fun hl hparcel => ?_⟩
  rw [ofNat_eq_wordH16 (k := 0x1401) srt srs 1#1 rfl] at hparcel
  exact (step_of_encode (i := .hsAdd srt srs) hl hm rfl rfl nofun hparcel).trans hexec

end Sys2Proof.Machine
end

section
/-! ## `x.placeholder` (spec/43_std48_placeholder.md R105) -/

namespace Sys2Proof.Machine

/-- R105, from every state: the refusal records the word that the encoder writes for the form. -/
theorem exec_xPlaceholder (s : State) (high : BitVec 15) (xo : BitVec 10) (low : BitVec 17) :
    exec (.xPlaceholder high xo low) s = .refused (.placeholder s.pc (wordX48 high xo low)) := rfl

/-- Settles O13: `exec_xPlaceholder`, with the encoder's word written out as its PO and the placeholder bits (R65). -/
theorem placeholderNeverExecutes : Obligations.PlaceholderNeverExecutes := by
  intro s high xo low
  rw [exec_xPlaceholder, wordX48, poX48]

end Sys2Proof.Machine
end

section
/-! ## `c.add`, `cs.add`, `cst.add` and the temporary swap (spec/44_compressed16.md R110 to R112; spec/10_state.md
R28) -/

namespace Sys2Proof

/-- The Compressed parcel of R82, read as a word of the encoder. -/
theorem ofNat_eq_wordC16 {k : Nat} (m : BitVec 1) (t s : SmallCode) (c : BitVec 1)
    (hk : k = m.toNat * 2 ^ 15 + 0x0400 + c.toNat) :
    BitVec.ofNat 16 (k + t.toNat * 16 + s.toNat * 2) = wordC16 m t s c := by
  refine (eq_ofNat_of_toNat ?_).symm
  rw [wordC16_toNat]
  omega

end Sys2Proof

namespace Sys2Proof.Machine

variable {s : State}

/-- Completion in Compressed mode, as one state: the form's own row decides the mode, whatever swap_back was (R24,
R28). -/
theorem State.complete_of_compressed (hm : s.mode = .compressed) (i : Instr) :
    s.complete i = { s with
      pc := s.pc + BitVec.ofNat 64 i.width
      mode := (ownNextMode i).1
      swapBack := (ownNextMode i).2 } := by
  rw [State.complete, hm, nextMode_compressed]

/-- What the three forms share, from every state in Compressed mode: the sum of `exec_add16` completed with the form's
own row, and the form's parcel at the pc runs as it (R110 to R112). -/
theorem compressedAdd_effect {i : Instr} {srt srs : SmallCode} {parcel : Parcel} (hm : s.mode = .compressed)
    (hi : i = .cAdd srt srs ∨ i = .csAdd srt srs ∨ i = .cstAdd srt srs)
    (hencode : encode s.run.prefixPo i = bytesOf 2 parcel) :
    let t : State := { s.setReg (small srt) (s.reg (small srt) + s.reg (small srs)) with
      pc := s.pc + 2#64
      mode := (ownNextMode i).1
      swapBack := (ownNextMode i).2 }
    exec i s = .next t ∧ (s.Live → s.HoldsAtPc (bytesOf 2 parcel) → step s = .next t) := by
  intro t
  have hexec : exec i s = .next t := by
    rw [exec_add16 s (.inr (.inr hi)), State.complete_of_compressed (s := s.setReg (small srt) _) hm]
    obtain rfl | rfl | rfl := hi <;> rfl
  refine ⟨hexec, fun hl hparcel => ?_⟩
  rw [← hencode] at hparcel
  rw [← hexec]
  obtain rfl | rfl | rfl := hi <;> exact step_of_encode hl hm rfl rfl nofun hparcel

/-- Settles O22: the row of `c.add` stays in Compressed mode. -/
theorem cAddEffect : Obligations.CAddEffect := by
  intro s srt srs hm
  exact compressedAdd_effect hm (.inl rfl) (by rw [encode, ofNat_eq_wordC16 (k := 0x0400) 0#1 srt srs 0#1 rfl])

/-- Settles O23: the row of `cs.add` is Standard mode with nothing pending. -/
theorem csAddEffect : Obligations.CsAddEffect := by
  intro s srt srs hm
  exact compressedAdd_effect hm (.inr (.inl rfl)) (by rw [encode, ofNat_eq_wordC16 (k := 0x0401) 0#1 srt srs 1#1 rfl])

/-- Settles O24: the row of `cst.add` is Standard mode with the swap back pending. -/
theorem cstAddEffect : Obligations.CstAddEffect := by
  intro s srt srs hm
  exact compressedAdd_effect hm (.inr (.inr rfl)) (by rw [encode, ofNat_eq_wordC16 (k := 0x8401) 1#1 srt srs 1#1 rfl])

/-- Settles O32: after a `cst.add` a swap back is pending, hence Standard mode, and the pending swap back overrides the
own row of whatever completes next. -/
theorem temporarySwapLastsOneInstruction : Obligations.TemporarySwapLastsOneInstruction := by
  intro s t u a b hcst ht hu
  have hpending : t.swapBack = true := (step_next_swapBack_iff ht).mpr ⟨a, b, hcst⟩
  have hstandard : t.mode = .standard := step_next_swapBack_standard ht hpending
  obtain ⟨-, i, n, hi, rfl, hmode, hexec⟩ := step_next hu
  obtain ⟨-, humode, huswap, -, -, hwidth⟩ := exec_completes hexec
  rw [hstandard, hpending, nextMode_pending] at humode huswap
  exact ⟨hstandard, humode, huswap, i, i.width, hi, hmode.trans hstandard, hwidth⟩

end Sys2Proof.Machine
end

section
/-! ## Which forms change the mode (spec/44_compressed16.md R113; spec/60_exceptions.md R131) -/

namespace Sys2Proof.Machine

/-- In the mode that decodes it, a form leaves that mode only for a pending swap back or as one of the three swaps
(R27, R28). -/
theorem swap_of_nextMode_ne {i : Instr} {m : Mode} {b : Bool} (him : i.mode = m) (h : (nextMode m b i).1 ≠ m) :
    b = true ∨ ∃ t s, i = .hsAdd t s ∨ i = .csAdd t s ∨ i = .cstAdd t s := by
  cases m with
  | standard =>
    cases b with
    | true => exact .inl rfl
    | false =>
      by_cases hswap : ∃ t s, i = .hsAdd t s
      · obtain ⟨t, s, hi⟩ := hswap
        exact .inr ⟨t, s, .inl hi⟩
      · exact absurd (congrArg Prod.fst ((ownNextMode_of_standard him).2 hswap)) h
  | compressed =>
    rw [nextMode_compressed] at h
    obtain ⟨t, s, -, hown⟩ | ⟨t, s, hi, -⟩ | ⟨t, s, hi, -⟩ := ownNextMode_of_compressed him
    · exact absurd (congrArg Prod.fst hown) h
    · exact .inr ⟨t, s, .inr (.inl hi)⟩
    · exact .inr ⟨t, s, .inr (.inr hi)⟩

/-- Settles O33: the mode update of the form that the step decoded, each swap being two bytes wide. -/
theorem onlySwapsChangeTheMode : Obligations.OnlySwapsChangeTheMode := by
  intro s t h hne
  obtain ⟨-, i, n, hi, rfl, him, hexec⟩ := step_next h
  obtain ⟨-, htmode, -⟩ := exec_completes hexec
  rw [htmode] at hne
  refine (swap_of_nextMode_ne him hne).imp_right ?_
  rintro ⟨a, b, rfl | rfl | rfl⟩
  · exact ⟨a, b, .inl hi⟩
  · exact ⟨a, b, .inr (.inl hi)⟩
  · exact ⟨a, b, .inr (.inr hi)⟩

end Sys2Proof.Machine
end

section
/-! ## Why decode rejects, with what it records, and how a step faults or is refused (spec/60_exceptions.md R122, R123;
spec/30_encoding.md R70, R72, R73, R75) -/

namespace Sys2Proof

variable {p : PrefixPo} {cross : Bool} {m : Mode} {fetch : Nat → Except Reject Byte} {pc : Word} {r : Reject}

/-- The first words of R72 and R73 that are refused as they stand: a PO of none of the eight forms, the reserved XO of
the 48-bit class, and a word with PO = `PREFIX_PO` that no `paddi` begins with. -/
def OutOfScopeWord (p : PrefixPo) (w : BitVec 32) : Prop :=
  (field w 0 5 ≠ poX48 ∧ field w 0 5 ≠ poH16 ∧ field w 0 5 ≠ p.value ∧ field w 0 5 ≠ poAddi) ∨
  (field w 0 5 = poX48 ∧ field w 21 30 = reservedXo) ∨
  (field w 0 5 = p.value ∧ ¬(field w 6 7 = 2#2 ∧ field w 8 8 = 0#1 ∧ field w 11 11 = 0#1))

/-- Why decode rejects, with the parcels or bits in place that it looked at. -/
inductive DecodeRejects (p : PrefixPo) (cross : Bool) (m : Mode) (fetch : Nat → Except Reject Byte) (pc : Word) :
    Reject → Prop where
  | missing {k : Nat} {r : Reject} (h : fetchParcel fetch (pc.toNat + k) = .error r) :
      DecodeRejects p cross m fetch pc r
  | crosses {a : Parcel} (hm : m = .standard) (ha : fetchParcel fetch pc.toNat = .ok a) (hpo : field a 0 5 = p.value)
      (hcross : crosses64B cross pc = true) : DecodeRejects p cross m fetch pc (.prefixCrosses64B pc)
  | standardParcel {a : Parcel} (hm : m = .standard) (ha : fetchParcel fetch pc.toNat = .ok a)
      (hpo : field a 0 5 = poH16) (hso : field a 6 8 ≠ 0#3) : DecodeRejects p cross m fetch pc (.illegalEncoding pc a)
  | compressedParcel {a : Parcel} (hm : m = .compressed) (ha : fetchParcel fetch pc.toNat = .ok a)
      (hbad : field a 1 5 ≠ sohAdd ∨ field a 6 8 ≠ 0#3 ∨ (field a 0 0 = 1#1 ∧ field a 15 15 = 0#1)) :
      DecodeRejects p cross m fetch pc (.illegalEncoding pc a)
  | word {w : BitVec 32} (hm : m = .standard) (hw : HoldsAt fetch pc.toNat (bytesOf 4 w))
      (hscope : OutOfScopeWord p w) : DecodeRejects p cross m fetch pc (.outOfScope pc (.word w))
  | pair {v : BitVec 64} (hm : m = .standard) (hv : HoldsAt fetch pc.toNat (bytesOf 8 v))
      (hpo : field v 0 5 = p.value) (hsuffix : field v 32 37 ≠ poAddi) :
      DecodeRejects p cross m fetch pc (.outOfScope pc (.pair v))

/-- A 64-bit value is its two words. -/
theorem holdsAt_word_word {a : Nat} {w s : BitVec 32} :
    HoldsAt fetch a (bytesOf 8 (w ++ s : BitVec 64)) ↔
      HoldsAt fetch a (bytesOf 4 w) ∧ HoldsAt fetch (a + 4) (bytesOf 4 s) := by
  rw [bytesOf_split 4 4, holdsAt_append, length_bytesOf, BitVec.extractLsb'_append_eq_left,
    BitVec.extractLsb'_append_eq_right]

/-- PO of a 64-bit value is that of its first word. -/
theorem field_po_pair (w s : BitVec 32) : field (w ++ s : BitVec 64) 0 5 = field w 0 5 :=
  BitVec.extractLsb'_append_eq_of_le (by omega)

/-- PO of the suffix, as a field of the 64 bits (R61, R63). -/
theorem field_suffix_po_pair (w s : BitVec 32) : field (w ++ s : BitVec 64) 32 37 = field s 0 5 :=
  BitVec.eq_of_toNat_eq (by
    have h : (w ++ s : BitVec 64).toNat = w.toNat * 2 ^ 32 + s.toNat := toNat_cat w s
    rw [field_toNat, field_toNat, h]
    omega)

/-- A word with PO = `PREFIX_PO` that is no `paddi` prefix is out of scope. -/
theorem outOfScopeWord_of_prefix {w : BitVec 32} (hpo : field w 0 5 = p.value) (hw : isPaddiPrefix w = false) :
    OutOfScopeWord p w :=
  .inr (.inr ⟨hpo, fun h => by simp [(isPaddiPrefix_iff w).mpr h] at hw⟩)

/-- Rejections by `decodeSuffix`, after a prefix in place. -/
theorem decodeSuffix_rejects {w : BitVec 32} (hw : HoldsAt fetch pc.toNat (bytesOf 4 w)) (hpo : field w 0 5 = p.value)
    (hd : decodeSuffix fetch pc w = .error r) : DecodeRejects p cross .standard fetch pc r := by
  obtain hc | ⟨c, hc, hs | ⟨d, hs, hne, rfl⟩⟩ := decodeSuffix_error hd
  · exact .missing hc
  · exact .missing hs
  · refine .pair rfl (holdsAt_word_word.mpr ⟨hw, holdsAt_word_append.mpr ⟨hc, hs⟩⟩) ?_ ?_
    · rw [field_po_pair, hpo]
    · rwa [field_suffix_po_pair, field_po_append]

/-- Rejections by `decodeWord`, of a word in place that is of neither the 16-bit nor the 48-bit class. -/
theorem decodeWord_rejects {a b : Parcel} (ha : fetchParcel fetch pc.toNat = .ok a)
    (hb : fetchParcel fetch (pc.toNat + 2) = .ok b) (h16 : field a 0 5 ≠ poH16) (h48 : field a 0 5 ≠ poX48)
    (hd : decodeWord p cross fetch pc (a ++ b) = .error r) : DecodeRejects p cross .standard fetch pc r := by
  have hw := holdsAt_word_append.mpr ⟨ha, hb⟩
  have hfirst := field_po_append a b
  obtain ⟨hpo, hcross, -, rfl⟩ | ⟨hpo, -, -, hprefix, rfl⟩ | ⟨hpo, -, -, hs⟩ | ⟨hp, haddi, rfl⟩ := decodeWord_error hd
  · exact .crosses rfl ha (hfirst ▸ hpo) hcross
  · exact .word rfl hw (outOfScopeWord_of_prefix hpo hprefix)
  · exact decodeSuffix_rejects hw hpo hs
  · rw [← hfirst] at h16 h48
    exact .word rfl hw (.inl ⟨h48, h16, hp, haddi⟩)

/-- Rejections by the Standard-mode decoder (R66, R69). -/
theorem decodeStandard_rejects (hd : decodeStandard p cross fetch pc = .error r) :
    DecodeRejects p cross .standard fetch pc r := by
  obtain ha | ⟨a, ha, ⟨hpo, hso, rfl⟩ | ⟨h16, hb | ⟨b, hb, ⟨hpo, hxo, rfl⟩ | ⟨-, -, hc⟩ | ⟨h48, hw⟩⟩⟩⟩ :=
    decodeStandard_error hd
  · exact .missing (k := 0) ha
  · exact .standardParcel rfl ha hpo hso
  · exact .missing hb
  · exact .word rfl (holdsAt_word_append.mpr ⟨ha, hb⟩) (.inr (.inl ⟨(field_po_append a b).trans hpo, hxo⟩))
  · exact .missing hc
  · exact decodeWord_rejects ha hb h16 h48 hw

/-- Every rejection by decode, in either mode, has one of the causes above. -/
theorem decodeAt_rejects (hd : decodeAt p cross m fetch pc = .error r) : DecodeRejects p cross m fetch pc r := by
  cases m with
  | standard => exact decodeStandard_rejects hd
  | compressed =>
    obtain ha | ⟨a, ha, hc⟩ := decodeAt_compressed_error hd
    · exact .missing (k := 0) ha
    · obtain ⟨rfl, hbad⟩ := decodeCompressed_error hc
      exact .compressedParcel rfl ha hbad

end Sys2Proof

namespace Sys2Proof.Machine

variable {s : State}

/-- A parcel that is not there is rejected as outside the image (R44, R49). -/
theorem State.outsideImage_of_fetchParcel {a : Nat} {r : Reject} (h : fetchParcel s.fetchByte a = .error r) :
    ∃ b, r = .fetchOutsideImage b := by
  obtain h | ⟨-, h⟩ := fetchParcel_error.mp h
  · exact ⟨_, State.fetchByte_error h⟩
  · exact ⟨_, State.fetchByte_error h⟩

/-- Settles O41: of the causes for which decode rejects, each fault has its own; the address of a missing byte is that
of `fetchFaultNamesFirstMissingByte`. -/
theorem everyFaultHasItsCause : Obligations.EveryFaultHasItsCause := by
  refine ⟨exec_ne_fault, fun s f h => ?_⟩
  obtain ⟨-, hodd, rfl⟩ | ⟨-, r, hr, hstop⟩ := step_fault h
  · exact ⟨rfl, by simpa [State.pcIsOdd] using hodd⟩
  cases decodeAt_rejects hr with
  | missing hmiss =>
    obtain ⟨a, rfl⟩ := State.outsideImage_of_fetchParcel hmiss
    cases hstop
    obtain ⟨hlow, hhigh, hbyte, -⟩ := fetchFaultNamesFirstMissingByte s a h
    exact ⟨hbyte, hlow, hhigh⟩
  | crosses hm ha hpo hcross =>
    cases hstop
    obtain ⟨hon, hpc⟩ : s.run.prefixCross64bFaults = true ∧ 56 < s.pc.toNat % 64 := by
      simpa [crosses64B] using hcross
    exact ⟨rfl, hm, hon, hpc, _, ha, hpo⟩
  | standardParcel hm ha hpo hso =>
    cases hstop
    exact ⟨rfl, ha, .inl ⟨hm, hpo, hso⟩⟩
  | compressedParcel hm ha hbad =>
    cases hstop
    exact ⟨rfl, ha, .inr ⟨hm, hbad⟩⟩
  | word _ _ _ => cases hstop
  | pair _ _ _ _ => cases hstop

/-- Only `x.placeholder` is refused in execution (R105). -/
theorem exec_refused {i : Instr} {r : Refusal} (h : exec i s = .refused r) :
    ∃ high xo low, i = .xPlaceholder high xo low ∧ r = .placeholder s.pc (wordX48 high xo low) := by
  cases i with
  | xPlaceholder high xo low => cases h; exact ⟨high, xo, low, rfl, rfl⟩
  | _ => cases h

/-- A step that is refused: the state is final, decode rejected, or decode gave an `x.placeholder`. -/
theorem step_refused {r : Refusal} (h : step s = .refused r) :
    (s.isFinal = true ∧ r = .final s.pc) ∨
    (∃ e, s.fetchInstr = .error e ∧ stopOf e = .refused r) ∨
    (∃ high xo low n, s.fetchInstr = .ok (.xPlaceholder high xo low, n) ∧
      r = .placeholder s.pc (wordX48 high xo low)) := by
  cases hf : s.isFinal with
  | true => cases (step_of_final hf).symm.trans h; exact .inl ⟨rfl, rfl⟩
  | false =>
    cases ho : s.pcIsOdd with
    | true => cases (step_of_odd hf ho).symm.trans h
    | false =>
      rw [step_of_live ⟨hf, ho⟩] at h
      split at h
      · next e he => exact .inr (.inl ⟨e, he, h⟩)
      · next i n hi =>
        obtain ⟨high, xo, low, rfl, hr⟩ := exec_refused h
        exact .inr (.inr ⟨high, xo, low, n, hi, hr⟩)

/-- Settles O42: of the causes for which decode rejects, two are refusals; the third refusal is that of an
`x.placeholder`, whose encoding stands at the pc. -/
theorem everyRefusalHasItsCause : Obligations.EveryRefusalHasItsCause := by
  intro s r h
  obtain ⟨hfinal, rfl⟩ | ⟨e, he, hstop⟩ | ⟨high, xo, low, n, hi, rfl⟩ := step_refused h
  · exact ⟨rfl, by simpa [State.isFinal] using hfinal⟩
  · cases decodeAt_rejects he with
    | missing hmiss =>
      obtain ⟨a, rfl⟩ := State.outsideImage_of_fetchParcel hmiss
      cases hstop
    | crosses _ _ _ _ => cases hstop
    | standardParcel _ _ _ _ => cases hstop
    | compressedParcel _ _ _ => cases hstop
    | word hm hw hscope => cases hstop; exact ⟨rfl, hm, hw, hscope⟩
    | pair hm hv hpo hsuffix => cases hstop; exact ⟨rfl, hm, hv, hpo, hsuffix⟩
  · obtain ⟨-, hm⟩ := decodeAt_width hi
    obtain ⟨hxo, -⟩ := decodeAt_wellFormed hi
    have hbits : s.HoldsAtPc (bytesOf 6 (wordX48 high xo low)) :=
      holdsAt_encode_of_decodeAt hi (by simp [Instr.width])
    refine ⟨rfl, hm.symm, hbits, wordX48_po high xo low, ?_⟩
    rw [wordX48_xo]
    exact bne_iff_ne.mp hxo

end Sys2Proof.Machine
end

section
/-! ## The order of the terminal outcomes (spec/60_exceptions.md R128) -/

namespace Sys2Proof

variable {p : PrefixPo} {cross : Bool} {fetch : Nat → Except Reject Byte} {pc : Word} {r : Reject}

/-- Without the first parcel decode ends, in either mode. -/
theorem decodeAt_of_first_missing {m : Mode} (h : fetchParcel fetch pc.toNat = .error r) :
    decodeAt p cross m fetch pc = .error r := by
  cases m with
  | standard => rw [decodeAt, decodeStandard, h]; rfl
  | compressed => rw [decodeAt, h]; rfl

/-- Without the second parcel the Standard-mode decoder ends, unless the first is of the 16-bit class. -/
theorem decodeStandard_of_second_missing {a : Parcel} (ha : fetchParcel fetch pc.toNat = .ok a)
    (hpo : field a 0 5 ≠ poH16) (hb : fetchParcel fetch (pc.toNat + 2) = .error r) :
    decodeStandard p cross fetch pc = .error r := by
  rw [decodeStandard, ha, hb]
  exact if_neg hpo

/-- Without the third parcel the 48-bit class ends. -/
theorem decodeX48_of_third_missing {w : BitVec 32} (hxo : field w 21 30 ≠ reservedXo)
    (hc : fetchParcel fetch (pc.toNat + 4) = .error r) : decodeX48 fetch pc w = .error r := by
  rw [decodeX48, if_neg hxo, hc]
  rfl

/-- Without the third or the fourth parcel a prefix has no suffix. -/
theorem decodeSuffix_of_missing {w : BitVec 32}
    (h : fetchParcel fetch (pc.toNat + 4) = .error r ∨
      ∃ c, fetchParcel fetch (pc.toNat + 4) = .ok c ∧ fetchParcel fetch (pc.toNat + 6) = .error r) :
    decodeSuffix fetch pc w = .error r := by
  obtain hc | ⟨c, hc, hd⟩ := h
  · rw [decodeSuffix, hc]
    rfl
  · rw [decodeSuffix, hc, hd]
    rfl

/-- The parcels that the Compressed-mode decoder rejects are those of R75. -/
theorem decodeCompressed_of_illegal {h : Parcel}
    (hbad : field h 1 5 ≠ sohAdd ∨ field h 6 8 ≠ 0#3 ∨ (field h 0 0 = 1#1 ∧ field h 15 15 = 0#1)) :
    decodeCompressed pc h = .error (.illegalEncoding pc h) := by
  cases hd : decodeCompressed pc h with
  | error r => rw [(decodeCompressed_error hd).1]
  | ok d =>
    obtain ⟨hsoh, hso, -, hform⟩ := decodeCompressed_ok (i := d.1) (n := d.2) hd
    obtain hbad | hbad | ⟨hscmt, hscm⟩ := hbad
    · exact absurd hsoh hbad
    · exact absurd hso hbad
    · simp [hscmt, hscm] at hform

end Sys2Proof

namespace Sys2Proof.Machine

section
variable {s : State} (hl : s.Live)
include hl

/-- Item 2: without its first parcel an instruction faults, in either mode. -/
theorem step_of_first_missing {a : Nat} (h : s.parcelAt 0 = .error (.fetchOutsideImage a)) :
    step s = .fault (.fetchOutsideImage a) := by
  have hfetch : s.fetchInstr = .error (.fetchOutsideImage a) := decodeAt_of_first_missing h
  rw [step_of_live hl, hfetch]
  rfl

/-- Item 8: the illegal parcels of Compressed mode (R75). -/
theorem step_of_illegal_compressed {h : Parcel} (hm : s.mode = .compressed) (hh : s.parcelAt 0 = .ok h)
    (hbad : field h 1 5 ≠ sohAdd ∨ field h 6 8 ≠ 0#3 ∨ (field h 0 0 = 1#1 ∧ field h 15 15 = 0#1)) :
    step s = .fault (.illegalEncoding s.pc h) := by
  have hfetch : s.fetchInstr = .error (.illegalEncoding s.pc h) := by
    rw [State.fetchInstr, hm, decodeAt, show fetchParcel s.fetchByte s.pc.toNat = .ok h from hh]
    exact decodeCompressed_of_illegal hbad
  rw [step_of_live hl, hfetch]
  rfl

variable (hm : s.mode = .standard)
include hm

/-- Item 3: a parcel of the 16-bit class faults or completes by its SO alone (R70, R100, R101). -/
theorem step_of_po5 {h : Parcel} (hh : s.parcelAt 0 = .ok h) (hpo : field h 0 5 = poH16) :
    (field h 6 8 ≠ 0#3 → step s = .fault (.illegalEncoding s.pc h)) ∧
    (field h 6 8 = 0#3 → ∃ t, step s = .next t) := by
  refine ⟨fun hso => ?_, fun hso => ?_⟩
  · obtain ⟨hlow, hhigh⟩ := (po5WithNonzeroSoFaults.1 h).mp ⟨hpo, hso⟩
    exact po5WithNonzeroSoFaults.2 s h hl hm hh hlow hhigh
  · have hword := wordH16_of_fields h hpo hso
    rw [← hword] at hh
    have hdecode := decodeStandard_of_wordH16 (p := s.run.prefixPo) (cross := s.run.prefixCross64bFaults) hh
    split at hdecode
    · exact ⟨_, (step_of_decodeStandard_ok hl hm hdecode).trans (exec_add16 s (.inl rfl))⟩
    · exact ⟨_, (step_of_decodeStandard_ok hl hm hdecode).trans (exec_add16 s (.inr (.inl rfl)))⟩

/-- Item 4: any other instruction without its second parcel. -/
theorem step_of_second_missing {h : Parcel} {a : Nat} (hh : s.parcelAt 0 = .ok h) (hpo : field h 0 5 ≠ poH16)
    (hg : s.parcelAt 2 = .error (.fetchOutsideImage a)) : step s = .fault (.fetchOutsideImage a) :=
  step_of_decodeStandard_error hl hm (decodeStandard_of_second_missing hh hpo hg)

section
variable {h g : Parcel} (hh : s.parcelAt 0 = .ok h) (hg : s.parcelAt 2 = .ok g)
include hh hg

/-- Item 5: the 48-bit class without its third parcel (R65). -/
theorem step_of_third_missing {a : Nat} (hpo : field h 0 5 = poX48) (hxo : field (h ++ g) 21 30 ≠ reservedXo)
    (hc : s.parcelAt 4 = .error (.fetchOutsideImage a)) : step s = .fault (.fetchOutsideImage a) := by
  refine step_of_decodeStandard_error hl hm (r := .fetchOutsideImage a) ?_
  rw [decodeStandard_word hh hg (by rw [hpo]; decide), if_pos hpo]
  exact decodeX48_of_third_missing hxo hc

/-- Item 6: a prefix that may stand where it stands, without its suffix (R63). -/
theorem step_of_suffix_missing {a : Nat} (hpo : field h 0 5 = s.run.prefixPo.value)
    (hcross : crosses64B s.run.prefixCross64bFaults s.pc = false) (hprefix : isPaddiPrefix (h ++ g) = true)
    (hmiss : s.parcelAt 4 = .error (.fetchOutsideImage a) ∨
      ∃ c, s.parcelAt 4 = .ok c ∧ s.parcelAt 6 = .error (.fetchOutsideImage a)) :
    step s = .fault (.fetchOutsideImage a) := by
  refine step_of_decodeStandard_error hl hm (r := .fetchOutsideImage a) ?_
  rw [decodeStandard_of_prefix (holdsAt_word_append.mpr ⟨hh, hg⟩) ((field_po_append h g).trans hpo) hcross hprefix]
  exact decodeSuffix_of_missing hmiss

end
end

/-- Settles O43: the eight items in turn, each at a live state whose earlier items do not apply. -/
theorem terminalOutcomesInOrder : Obligations.TerminalOutcomesInOrder := by
  intro s hf hp
  refine ⟨pcStaysEven.1 s hf, fun a he ha => step_of_first_missing ⟨hf, he⟩ ha,
    fun h he hm hh hpo => step_of_po5 ⟨hf, he⟩ hm hh hpo,
    fun h a he hm hh hpo hg => step_of_second_missing ⟨hf, he⟩ hm hh hpo hg, fun h g he hm hh hg => ?_,
    fun h he hm hh hbad => step_of_illegal_compressed ⟨hf, he⟩ hm hh hbad⟩
  have hl : s.Live := ⟨hf, he⟩
  obtain ⟨hother, hfixed, hsuffix⟩ := outOfScopeWordsAreRefused s h g hl hm hh hg
  refine ⟨fun hpo => ?_, fun hpo => ?_, fun h0 h1 h5 h14 => hother _ rfl h0 h5 h14 fun _ => h1⟩
  · obtain ⟨hreserved, hplaceholder⟩ := placeholderClassIsRefused s h g hl hm hh hg hpo
    exact ⟨hreserved, fun a hxo hc => step_of_third_missing hl hm hh hg hpo hxo hc, hplaceholder⟩
  · have hpo' : field h 0 5 = s.run.prefixPo.value := by rw [hp]; exact hpo
    refine ⟨fun hon hpc => ?_, fun hstays => ?_⟩
    · have heven := State.pc_mod_two he
      exact prefixMayNotCross64Bytes.1 s h g hl hm hon hh hg hpo' (by simp [hp]) (by omega)
    · have hcross : crosses64B s.run.prefixCross64bFaults s.pc = false := by simpa [crosses64B] using hstays
      refine ⟨fun hw => hfixed hp hpo hcross ?_, fun hw => ?_⟩
      · rw [← isPaddiPrefix_append_iff h g, hw]
        nofun
      · obtain ⟨htype, hsub, hr⟩ := (isPaddiPrefix_append_iff h g).mp hw
        exact ⟨fun a hc => step_of_suffix_missing hl hm hh hg hpo' hcross hw (.inl hc),
          fun c a hc hd => step_of_suffix_missing hl hm hh hg hpo' hcross hw (.inr ⟨c, hc, hd⟩),
          fun c d => hsuffix c d hpo' hcross htype hsub hr⟩

end Sys2Proof.Machine
end

section
/-! ## Launch, the endings of a run, and its length (spec/10_state.md R24, R35; spec/20_memory.md R41;
spec/70_reset_and_hazards.md R140, R143, R144) -/

namespace Sys2Proof.Machine

/-- R143, as a proposition. -/
theorem State.isFinal_iff {s : State} : s.isFinal = true ↔ s.pc = s.run.endPc := beq_iff_eq

/-- A run goes on exactly while the pc is not `END_PC` (R143). -/
theorem State.isFinal_eq_false_iff {s : State} : s.isFinal = false ↔ s.pc ≠ s.run.endPc := beq_eq_false_iff_ne

/-- The first of `n + 1` completed steps. -/
theorem State.after_succ_eq_some {s u : State} {n : Nat} :
    s.after (n + 1) = some u ↔ ∃ t, step s = .next t ∧ t.after n = some u := by
  rw [State.after]
  cases step s <;> simp

/-- A run that has not ended within `n` steps has completed them. -/
theorem exists_after_of_runFor_eq_none {n : Nat} {s : State} (h : runFor n s = none) : ∃ t, s.after n = some t := by
  induction n generalizing s with
  | zero => exact ⟨s, rfl⟩
  | succ n ih =>
    cases hf : s.isFinal with
    | true => cases (runFor_of_final hf _).symm.trans h
    | false =>
      cases hs : step s with
      | next t =>
        obtain ⟨u, hu⟩ := ih ((runFor_of_next hf hs n).symm.trans h)
        exact ⟨u, State.after_succ_eq_some.mpr ⟨t, hs, hu⟩⟩
      | fault f => cases (runFor_of_fault hf hs n).symm.trans h
      | refused r => cases (runFor_of_refused hf hs n).symm.trans h

/-- Under the invariant a completed step takes the pc forward by at least 2, the smallest width (R24). -/
theorem step_next_pc_grows {s t : State} (hs : s.Inv) (h : step s = .next t) : s.pc.toNat + 2 ≤ t.pc.toNat := by
  obtain ⟨-, i, n, hi, rfl, -, he⟩ := step_next h
  obtain ⟨hpc, -, -, -, -, hw⟩ := exec_completes he
  obtain ⟨hsum, -⟩ := step_next_pc hs hi hpc
  omega

/-- What `n` completed steps keep and how far they take the pc: the invariant bounds it by the image's end, which does
not move (R24, R42). -/
theorem State.after_bounds {n : Nat} {s t : State} (hs : s.Inv) (h : s.after n = some t) :
    s.pc.toNat + 2 * n ≤ t.pc.toNat ∧ t.pc.toNat ≤ s.imageEnd := by
  induction n generalizing s with
  | zero =>
    cases h
    obtain ⟨-, -, -, -, hend, -⟩ := hs
    exact ⟨Nat.le_refl _, hend⟩
  | succ n ih =>
    obtain ⟨u, hu, ht⟩ := State.after_succ_eq_some.mp h
    obtain ⟨hmem, hrun⟩ := step_next_frame hu
    have hgrows := step_next_pc_grows hs hu
    obtain ⟨hpc, hend⟩ := ih (everyStepKeepsTheInvariant s u hs hu) ht
    rw [State.imageEnd, hmem, hrun] at hend
    exact ⟨by omega, hend⟩

/-- Settles O49: the pc grows by 2 a step and stays in the image, so a run that has not ended has room for its steps. -/
theorem everyRunEnds : Obligations.EveryRunEnds := by
  intro s hs
  have hbound (n : Nat) (t : State) (h : s.after n = some t) :
      s.pc.toNat + 2 * n ≤ t.pc.toNat ∧ n ≤ (s.imageEnd - s.pc.toNat) / 2 := by
    obtain ⟨hpc, hend⟩ := State.after_bounds hs h
    exact ⟨hpc, by omega⟩
  refine ⟨hbound, ?_⟩
  cases hr : runFor ((s.imageEnd - s.pc.toNat) / 2 + 1) s with
  | some e => exact ⟨e, rfl⟩
  | none =>
    obtain ⟨t, ht⟩ := exists_after_of_runFor_eq_none hr
    obtain ⟨-, hn⟩ := hbound _ t ht
    omega

/-- Settles O44: by induction on the run, whose last state decides which equation of `runFor` gave its ending. -/
theorem everyEndingIsWhatItSays : Obligations.EveryEndingIsWhatItSays := by
  intro n s e h
  induction n generalizing s with
  | zero =>
    cases hf : s.isFinal with
    | true => cases (runFor_of_final hf 0).symm.trans h; exact State.isFinal_iff.mp hf
    | false => cases (runFor_zero hf).symm.trans h
  | succ n ih =>
    cases hf : s.isFinal with
    | true => cases (runFor_of_final hf _).symm.trans h; exact State.isFinal_iff.mp hf
    | false =>
      have hne := State.isFinal_eq_false_iff.mp hf
      cases hs : step s with
      | next t => exact ih t ((runFor_of_next hf hs n).symm.trans h)
      | fault f => cases (runFor_of_fault hf hs n).symm.trans h; exact ⟨hne, hs⟩
      | refused r => cases (runFor_of_refused hf hs n).symm.trans h; exact ⟨hne, hs⟩

/-- Only LE without `LE_XOR` gives no byte order (R46). -/
theorem LaunchArgs.order_eq_none_iff {a : LaunchArgs} : a.order = none ↔ a.endian = .le ∧ a.leXor = none := by
  unfold LaunchArgs.order
  cases a.endian with
  | be => simp
  | le => cases a.leXor <;> simp

section
variable {a : LaunchArgs}

/-- R46: a launch without a byte order is refused for that. -/
theorem launch_of_order_none (h : a.order = none) : launch a = .error .leXorMissing := by
  rw [launch, h]

/-- R140: a launch that breaks a constraint of R41 is refused for that. -/
theorem launch_of_not_constraintsHold {e : Endian} (h : a.order = some e)
    (hc : ¬constraintsHold (a.consts e) a.image.length) : launch a = .error .constraints := by
  rw [launch, h]
  exact if_neg hc

/-- R140: a launch that meets the constraints of R41 builds its state. -/
theorem launch_of_constraintsHold {e : Endian} (h : a.order = some e)
    (hc : constraintsHold (a.consts e) a.image.length) : launch a = .ok (a.state e) := by
  rw [launch, h]
  exact if_pos hc

/-- R46, R140: only a launch without a byte order is refused for a missing `LE_XOR`. -/
theorem launch_eq_leXorMissing_iff : launch a = .error .leXorMissing ↔ a.order = none := by
  refine ⟨fun h => ?_, launch_of_order_none⟩
  cases ho : a.order with
  | none => rfl
  | some e =>
    by_cases hc : constraintsHold (a.consts e) a.image.length
    · cases (launch_of_constraintsHold ho hc).symm.trans h
    · cases (launch_of_not_constraintsHold ho hc).symm.trans h

end

/-- The default `END_PC` is the end of the image as a number where the image ends below 2^64 (R6, R41). -/
theorem defaultEndPc_toNat {imageBase : Word} {image : List Byte} (h : imageBase.toNat + image.length < 2 ^ 64) :
    (defaultEndPc imageBase image).toNat = imageBase.toNat + image.length := by
  rw [defaultEndPc, BitVec.toNat_add, BitVec.toNat_ofNat]
  omega

/-- Settles O45: the three answers of `launch`, and the image read back from the memory that was built of it. -/
theorem launchBuildsTheLaunchState : Obligations.LaunchBuildsTheLaunchState := by
  refine fun a => ⟨launch_eq_leXorMissing_iff.trans LaunchArgs.order_eq_none_iff,
    fun e => launch_of_not_constraintsHold, fun e ho hc => ⟨a.state e, launch_of_constraintsHold ho hc,
      rfl, rfl, rfl, rfl, rfl, fun p hp => ?_, fun hp => ?_, fun k _ => ?_, fun p hp => ?_⟩⟩
  · show a.endAddress = p
    rw [LaunchArgs.endAddress, hp]
  · show a.endAddress.toNat = _
    rw [LaunchArgs.endAddress, hp]
    exact defaultEndPc_toNat hc.1
  · show Memory.read (Memory.ofImage _ _) _ = _
    rw [Memory.read_ofImage, if_neg (by omega), Nat.add_sub_cancel_left]
  · show Memory.read (Memory.ofImage _ _) _ = _
    rw [Memory.read_ofImage]
    split
    · rfl
    · exact List.getElem?_eq_none (by omega)

end Sys2Proof.Machine
end
